-- ==== Sys2Proof/Word.lean ====
section
/-! DEFINITION. The word types of the block: one name for each width the spec gives (00_scope R6 to R9, and the
summary table after R9). Every quantity is unsigned (R13). -/

namespace Sys2Proof

/-- A command word, `CMD_W = 32` bits (R9, R91). -/
abbrev CmdWord := BitVec 32

/-- The content of one GPIO register, `PORT_W = 8` bits (R9, R30). -/
abbrev PortWord := BitVec 8

/-- A selector of a GPIO register, `SEL_W = 4` bits (R9, R65). -/
abbrev Sel := BitVec 4

/-- A pin index, `PIN_W = 3` bits (R9, R23). -/
abbrev Pin := BitVec 3

/-- One channel of a colour, `CH_W = 8` bits (R6, R20). -/
abbrev Chan := BitVec 8

/-- `COUNT` and the LED index `I`, `COUNT_W = 8` bits (R9, R25, R37). -/
abbrev LedCount := BitVec 8

/-- The walker's byte index `K`, `K_W = 10` bits (R9, R36). -/
abbrev ByteIndex := BitVec 10

/-- The walker's bit index `J`, 3 bits (R36). -/
abbrev BitIndex := BitVec 3

/-- `ITERATION`, `ITER_W = 32` bits (R9, R26). -/
abbrev Iteration := BitVec 32

end Sys2Proof
end

