-- ==== Sys2Proof/Syntax.lean ====
section
/-! DEFINITION. The abstract syntax of the host commands (30_encoding R90, which is the normative form of a command),
and the data the commands and the callback ports carry (10_state R20, R23; 30_encoding R98, R99). -/

namespace Sys2Proof

/-- A colour: three independent channels, every one of the `2^24` values legal (R20). -/
structure Color where
  g : Chan
  r : Chan
  b : Chan
deriving DecidableEq, Repr, Inhabited

/-- The pin binding: the two GPIO registers and the two pins the block uses (R23). -/
structure Binding where
  ddr : Sel
  port : Sel
  pwr : Pin
  data : Pin
deriving DecidableEq, Repr, Inhabited

/-- An optional callback operand: R16 asks for variants for "no callback" and "supplied callback". `supplied` stands
for the unit attached to the port (R92). -/
inductive CbArg where
  | absent
  | supplied
deriving DecidableEq, Repr, Inhabited

/-- The result of an operation (R90, R210). -/
inductive Result where
  | success
  | invalidArgument
  | invalidData
  | invalidState
deriving DecidableEq, Repr, Inhabited

/-- The response code of a result, 2 bits (R98, D4). -/
def Result.code : Result → BitVec 2
  | .success => 0
  | .invalidArgument => 1
  | .invalidData => 2
  | .invalidState => 3

/-- What a callback may answer (R16, R99). -/
inductive CbResult where
  | success
  | invalidArgument
deriving DecidableEq, Repr, Inhabited

/-- The result bit of a callback answer (R99). -/
def CbResult.bit : CbResult → BitVec 1
  | .success => 0
  | .invalidArgument => 1

/-- A callback's result as an operation's result: it is passed on unchanged (R135, D25). -/
def CbResult.toResult : CbResult → Result
  | .success => .success
  | .invalidArgument => .invalidArgument

/-- A request on the init-callback port (R99). -/
structure InitRequest where
  cin : Color
  i : LedCount
deriving DecidableEq, Repr

/-- A request on the update-callback port (R99). -/
structure UpdateRequest where
  cin : Color
  i : LedCount
  it : Iteration
deriving DecidableEq, Repr

/-- An answer on either callback port (R99): the content the slot has after the call, and the result. -/
structure CbAnswer where
  cout : Color
  res : CbResult
deriving DecidableEq, Repr, Inhabited

/-- The five host commands with the operands of R90. `TRANSMIT` has no opcode and is not among them (R2, R100). -/
inductive Instr where
  | init (b : Binding) (n : LedCount) (icb : CbArg) (pwr : Bool) (ucb : CbArg)
  | powerOn (ucb : CbArg)
  | powerOff
  | update (ucb : CbArg)
  | uninit
deriving DecidableEq, Repr

/-- An optional operand of the textual syntax: the bare word if the callback is supplied, nothing if not (R100). -/
def CbArg.text (word : String) : CbArg → List String
  | .absent => []
  | .supplied => [word]

/-- The textual form of a command, word by word (R100): the mnemonic, then the operands, those that have their
default left out. -/
def Instr.text : Instr → List String
  | .init b n icb pwr ucb =>
    ["INIT", "ddr=" ++ toString b.ddr.toNat, "port=" ++ toString b.port.toNat, "pwr_pin=" ++ toString b.pwr.toNat,
      "data_pin=" ++ toString b.data.toNat, "count=" ++ toString n.toNat]
      ++ icb.text "icb" ++ (if pwr then ["pwr_on"] else []) ++ ucb.text "ucb"
  | .powerOn ucb => "POWER_ON" :: ucb.text "ucb"
  | .powerOff => ["POWER_OFF"]
  | .update ucb => "UPDATE" :: ucb.text "ucb"
  | .uninit => ["UNINIT"]

end Sys2Proof
end

