-- ==== Sys2Proof/WellFormed.lean ====
section
/-! DEFINITION. The fields of the one command format `C` (30_encoding R91) and the check that makes them a command
(R94, R95): the opcode is one of the five, the reserved fields are zero, and every field the command does not use is
zero. A term of `Instr` needs no check of its own: each operand's type is exactly its field (R92), so every term is
well formed; what can be ill formed is the fields of a word. -/

namespace Sys2Proof

/-- Format `C`, bit 31 first (the table of R91). -/
structure Fields where
  portSel : BitVec 4
  ddrSel : BitVec 4
  rsv1 : BitVec 2
  pwrPin : BitVec 3
  dataPin : BitVec 3
  count : BitVec 8
  rsv0 : BitVec 2
  pwr : Bool
  ucb : Bool
  icb : Bool
  op : BitVec 3
deriving DecidableEq, Repr

/-- Why a word is illegal (R95 lists the three). -/
inductive Illegal where
  | reservedOpcode
  | reservedField
  | unusedField
deriving DecidableEq, Repr

/-- The reserved fields are zero (R91). -/
def Fields.reservedZero (f : Fields) : Bool := f.rsv1 == 0 && f.rsv0 == 0

/-- The operands of `INIT` other than `UCB` are zero: `POWER_ON` and `UPDATE` use none of them (R94). -/
def Fields.onlyUcb (f : Fields) : Bool :=
  f.portSel == 0 && f.ddrSel == 0 && f.pwrPin == 0 && f.dataPin == 0 && f.count == 0 && !f.pwr && !f.icb

/-- Every operand is zero: `POWER_OFF` and `UNINIT` use `OP` only (R94). -/
def Fields.onlyOp (f : Fields) : Bool := f.onlyUcb && !f.ucb

/-- The fields the opcode does not use are zero (R94); `none` for a reserved opcode (R93). -/
def Fields.unusedZero (f : Fields) : Option Bool :=
  match f.op.toNat with
  | 1 => some true
  | 2 => some f.onlyUcb
  | 3 => some f.onlyOp
  | 4 => some f.onlyUcb
  | 5 => some f.onlyOp
  | _ => none

/-- The verdict on the fields of a word: `none` if they are a command (R94), else why not (R95). -/
def Fields.illegal (f : Fields) : Option Illegal :=
  match f.unusedZero with
  | none => some .reservedOpcode
  | some unused => if !f.reservedZero then some .reservedField else if !unused then some .unusedField else none

/-- The fields are those of a command. -/
def Fields.wf (f : Fields) : Bool := f.illegal.isNone

end Sys2Proof
end

