-- ==== Sys2Proof/Decode.lean ====
section
/-! DEFINITION. The decoder of command words (30_encoding R91 to R96), total on every word and rejecting by name, and
the encoder after it, written from the same tables. -/

namespace Sys2Proof

/-- The fields of a word, each taken from its bits as they stand (R91, R92). -/
def fieldsOf (w : CmdWord) : Fields where
  portSel := w.extractLsb' 28 4
  ddrSel := w.extractLsb' 24 4
  rsv1 := w.extractLsb' 22 2
  pwrPin := w.extractLsb' 19 3
  dataPin := w.extractLsb' 16 3
  count := w.extractLsb' 8 8
  rsv0 := w.extractLsb' 6 2
  pwr := w.getLsbD 5
  ucb := w.getLsbD 4
  icb := w.getLsbD 3
  op := w.extractLsb' 0 3

/-- `1` in a callback bit means the attached callback is supplied (R91, R92). -/
def cbArgOf (bit : Bool) : CbArg := if bit then .supplied else .absent

/-- The binding the fields of `INIT` assemble (R92). -/
def Fields.binding (f : Fields) : Binding := ⟨f.ddrSel, f.portSel, f.pwrPin, f.dataPin⟩

/-- The command of the opcode (R93); `none` for the reserved opcodes 0, 6 and 7. -/
def Fields.command (f : Fields) : Option Instr :=
  match f.op.toNat with
  | 1 => some (.init f.binding f.count (cbArgOf f.icb) f.pwr (cbArgOf f.ucb))
  | 2 => some (.powerOn (cbArgOf f.ucb))
  | 3 => some .powerOff
  | 4 => some (.update (cbArgOf f.ucb))
  | 5 => some .uninit
  | _ => none

/-- What the decoder makes of a word (R96): exactly one command, or illegal with the reason. -/
inductive Decoded where
  | command (i : Instr)
  | illegal (why : Illegal)
deriving DecidableEq, Repr

/-- The decoder. It depends on no state (R96). -/
def decode (w : CmdWord) : Decoded :=
  match (fieldsOf w).illegal with
  | some why => .illegal why
  | none =>
    match (fieldsOf w).command with
    | some i => .command i
    | none => .illegal .reservedOpcode

/-- The command of a decoded word, if there is one. -/
def Decoded.instr? : Decoded → Option Instr
  | .command i => some i
  | .illegal _ => none

/-- The command word a row of the opcode table stands for: `w` read on `nbits` bits, every bit above zero. -/
def tableWord (nbits w : Nat) : CmdWord := BitVec.ofNat 32 (w % 2 ^ nbits)

/-- The instruction the decoder reads from a row's word. The block is offered whole 32-bit words (R91); no byte
order is involved. -/
def decodeTableWord (nbits w : Nat) : Option Instr := (decode (tableWord nbits w)).instr?

/-- The bit of a callback operand (R91). -/
def CbArg.bit : CbArg → Bool
  | .absent => false
  | .supplied => true

/-- Fields that are zero but for the opcode. -/
def Fields.ofOp (op : BitVec 3) : Fields := ⟨0, 0, 0, 0, 0, 0, 0, false, false, false, op⟩

/-- The fields of a command: those it does not use are zero (R94). -/
def Instr.fields : Instr → Fields
  | .init b n icb pwr ucb => ⟨b.port, b.ddr, 0, b.pwr, b.data, n, 0, pwr, ucb.bit, icb.bit, 1⟩
  | .powerOn ucb => { Fields.ofOp 2 with ucb := ucb.bit }
  | .powerOff => Fields.ofOp 3
  | .update ucb => { Fields.ofOp 4 with ucb := ucb.bit }
  | .uninit => Fields.ofOp 5

/-- The fields laid out as a word, bit 31 first (R91). -/
def Fields.word (f : Fields) : CmdWord :=
  f.portSel ++ f.ddrSel ++ f.rsv1 ++ f.pwrPin ++ f.dataPin ++ f.count ++ f.rsv0
    ++ BitVec.ofBool f.pwr ++ BitVec.ofBool f.ucb ++ BitVec.ofBool f.icb ++ f.op

/-- The encoder: the one word of a command. -/
def encode (i : Instr) : CmdWord := i.fields.word

/-- A row of the opcode table: a word `w` selects it when `w &&& mask = pattern` (R94). -/
structure Row where
  mnemonic : String
  pattern : CmdWord
  mask : CmdWord
deriving DecidableEq, Repr

/-- The row of each command (the table of R94). -/
def Instr.row : Instr → Row
  | .init .. => ⟨"INIT", 0x00000001, 0x00C000C7⟩
  | .powerOn _ => ⟨"POWER_ON", 0x00000002, 0xFFFFFFEF⟩
  | .powerOff => ⟨"POWER_OFF", 0x00000003, 0xFFFFFFFF⟩
  | .update _ => ⟨"UPDATE", 0x00000004, 0xFFFFFFEF⟩
  | .uninit => ⟨"UNINIT", 0x00000005, 0xFFFFFFFF⟩

/-- A word selects a row (R94). -/
def Row.selects (r : Row) (w : CmdWord) : Bool := w &&& r.mask == r.pattern

/-- The whole table of R94, in its order. -/
def opcodeRows : List Row :=
  [(Instr.init default 0 .absent false .absent).row, (Instr.powerOn .absent).row, Instr.powerOff.row,
    (Instr.update .absent).row, Instr.uninit.row]

end Sys2Proof
end

