-- ==== Sys2Proof/Config.lean ====
section
/-! DEFINITION. What is fixed for one machine (00_scope R6 to R9) and the free values: the phase durations and the two
attached callbacks. A free value is an opaque constant with no body: nothing proved of it says which value it is. -/

namespace Sys2Proof

/-- The five labels a `DELAY` event carries (R11). -/
inductive DelayLabel where
  | settle
  | reset
  | phaseA
  | phaseB
  | phaseC
deriving DecidableEq, Repr

namespace Config

/-- `MAX`, the most LEDs a context holds: the default of R6. -/
abbrev maxLeds : Nat := 64

/-- `NREG`, the number of GPIO registers (R9, D7). -/
abbrev numRegs : Nat := 16

/-- `IE0` for `State.reset`. The spec leaves it open (R251, D20); DESIGN CHOICE, log 2: the value of the start state
of 95_test_vectors.md. `State.resetWith` takes either value. -/
def ie0 : Bool := true

/-- `GPIO0` for `State.reset`: the spec's default, all zero (R251, D21). -/
def gpio0 : Vector PortWord numRegs := Vector.replicate numRegs 0

/-- How much the three open phase durations exceed 1 ns: free (R8, D17, U2; log 7). -/
opaque extraA : Nat
/-- See `extraA`. -/
opaque extraB : Nat
/-- See `extraA`. -/
opaque extraC : Nat

/-- The attached init callback, for a request that `State.icbTable` does not list: a free total function (R16, R92,
D14; log 5). -/
opaque icb0 : InitRequest → CbAnswer

/-- The attached update callback, for a request that `State.ucbTable` does not list: a free total function (R16, R92,
D14; log 5). -/
opaque ucb0 : UpdateRequest → CbAnswer

end Config

/-- The duration a label stands for, in nanoseconds (R7, R8, R265). The open ones are positive and nothing else is
known of them. No meaning reads a duration (R265). -/
def DelayLabel.ns : DelayLabel → Nat
  | .settle => 100000
  | .reset => 50000
  | .phaseA => Config.extraA + 1
  | .phaseB => Config.extraB + 1
  | .phaseC => Config.extraC + 1

end Sys2Proof
end

