-- ==== Sys2Proof/Machine/State.lean ====
section
/-! DEFINITION. The state of the block (10_state R20 to R41), plain data: the Device Context, the environment registers
it reaches, and the transient registers of the encoder; beside them the model's own fields for what the spec calls the
run (00_scope R11, R12, R16, R17): the trace, the host's remaining inputs, and the attached callbacks. -/

namespace Sys2Proof.Machine

/-- `STATUS`: two independent flags (R22). Bits 7:2 are hardwired zero, so they are not stored. -/
structure Status where
  initialized : Bool
  poweredOn : Bool
deriving DecidableEq, Repr

/-- The Device Context: exactly five elements (R21). -/
structure Ctx where
  status : Status
  binding : Binding
  count : LedCount
  colors : Vector Color Config.maxLeds
  iteration : Iteration
deriving DecidableEq, Repr

/-- The bit-timer state `PHASE` (R36, R186). -/
inductive Phase where
  | idle
  | highA
  | winB
  | lowC
  | reset
deriving DecidableEq, Repr

/-- The event alphabet of the trace (R11). -/
inductive Event where
  | wrDdr (sel : Sel) (v : PortWord)
  | wrPort (sel : Sel) (v : PortWord)
  | delay (d : DelayLabel)
  | irqOff (s : Bool)
  | irqRestore (s : Bool)
  | cbInit (i : LedCount) (cin cout : Color) (res : CbResult)
  | cbUpdate (i : LedCount) (it : Iteration) (cin cout : Color) (res : CbResult)
  | resp (code : Result)
deriving DecidableEq, Repr

/-- What the host offers at the block's boundary: a command word (R12, R91), or a new value of `IE` between two
commands (R32). -/
inductive HostInput where
  | command (w : CmdWord)
  | setIe (v : Bool)
deriving DecidableEq, Repr

/-- The machine. -/
structure State where
  /-- the Device Context (R21) -/
  ctx : Ctx
  /-- `GPIO[0 .. NREG-1]` (R30) -/
  gpio : Vector PortWord Config.numRegs
  /-- `IE` (R32) -/
  ie : Bool
  /-- `PAT_HI` (R33) -/
  patHi : PortWord
  /-- `PAT_LO` (R33) -/
  patLo : PortWord
  /-- `SAVED_IE` (R34) -/
  savedIe : Bool
  /-- `K`, the walker's byte index (R36) -/
  k : ByteIndex
  /-- `J`, the walker's bit index (R36) -/
  j : BitIndex
  /-- `PHASE` (R36) -/
  phase : Phase
  /-- `I`, the callback walker index (R37) -/
  i : LedCount
  /-- the model's own: the trace of the run, oldest event first (R11, R17) -/
  trace : List Event
  /-- the model's own: what the host still offers, oldest first (R12; log 4) -/
  inputs : List HostInput
  /-- the model's own: the attached init callback on the requests listed (R16, R92; log 5) -/
  icbTable : List (InitRequest × CbAnswer)
  /-- the model's own: the attached update callback on the requests listed (R16, R92; log 5) -/
  ucbTable : List (UpdateRequest × CbAnswer)
deriving DecidableEq, Repr

/-- How the machine can stop. -/
inductive Fault where
  /-- Raised by a callback walk or a transmission that reaches past the colour buffer. Safe: the spec says that no
  index is out of range (R67), and `State.Inv` rules the case out (log 8). -/
  | bufferIndexOutOfRange
deriving DecidableEq, Repr

/-- Why the machine gives an instruction no next state. -/
inductive Refusal where
  /-- Raised by an arm of `exec` that has no meaning yet. Safe: nothing can be proved through it. -/
  | notModelled (mnemonic : String)
  /-- Raised by `UPDATE` step 6, and by what starts an `UPDATE`, at `ITERATION = 2^32 - 1`. Safe: the spec gives the
  increment no meaning and has a model refuse it (R146, D12, U5; log 9). -/
  | iterationAtMaximum
deriving DecidableEq, Repr

/-- `CTX0`, the zero context (R40). -/
def Ctx.zero : Ctx where
  status := ⟨false, false⟩
  binding := ⟨0, 0, 0, 0⟩
  count := 0
  colors := Vector.replicate Config.maxLeds ⟨0, 0, 0⟩
  iteration := 0

/-- Reset for any values of the parameters `IE0` and `GPIO0` (R250 to R252). The transient registers have no reset
value in the spec (R41); DESIGN CHOICE, log 3: zero. -/
def State.resetWith (ie0 : Bool) (gpio0 : Vector PortWord Config.numRegs) : State where
  ctx := Ctx.zero
  gpio := gpio0
  ie := ie0
  patHi := 0
  patLo := 0
  savedIe := false
  k := 0
  j := 0
  phase := .idle
  i := 0
  trace := []
  inputs := []
  icbTable := []
  ucbTable := []

/-- The machine right after reset (R250 to R252). -/
def State.reset : State := State.resetWith Config.ie0 Config.gpio0

end Sys2Proof.Machine
end

