-- ==== Sys2Proof/Machine/Flags.lean ====
section
/-! DEFINITION. The flags of the block (10_state R38): `STATUS.I`, `STATUS.P`, read and written by name, the register
they make up, and the lifecycle state that is read off them. -/

namespace Sys2Proof.Machine

/-- The 8-bit register `STATUS`: bit 0 is `I`, bit 1 is `P`, bits 7:2 are hardwired zero (R22, D5). -/
def Status.word (st : Status) : BitVec 8 :=
  0#6 ++ BitVec.ofBool st.poweredOn ++ BitVec.ofBool st.initialized

/-- `STATUS.I`. -/
def isInitialized (s : State) : Bool := s.ctx.status.initialized

/-- `STATUS.P`. -/
def isPoweredOn (s : State) : Bool := s.ctx.status.poweredOn

/-- `STATUS.I <- v`. -/
def setInitialized (v : Bool) (s : State) : State :=
  { s with ctx := { s.ctx with status := { s.ctx.status with initialized := v } } }

/-- `STATUS.P <- v`. -/
def setPoweredOn (v : Bool) (s : State) : State :=
  { s with ctx := { s.ctx with status := { s.ctx.status with poweredOn := v } } }

/-- The three lifecycle states (R27, R228). -/
inductive Lifecycle where
  | unbound
  | initializedOff
  | initializedOn
deriving DecidableEq, Repr

/-- The lifecycle state, read off `STATUS` (R27). -/
def lifecycle (s : State) : Lifecycle :=
  if isInitialized s then (if isPoweredOn s then .initializedOn else .initializedOff) else .unbound

end Sys2Proof.Machine
end

