-- ==== Sys2Proof/Machine/Operands.lean ====
section
/-! DEFINITION. The operand forms: pin masks and pin levels (00_scope R13, 10_state R31), the colour buffer as slots and
as bytes (20_memory R61), the walk orders, and the arithmetic of the registers (40_device_ops R153). -/

namespace Sys2Proof.Machine

/-- `bit(p) = 1 << p` (R13). -/
def bitMask (p : Pin) : PortWord := 1#8 <<< p.toNat

/-- `v[p]` (R13). -/
def pinBit (v : PortWord) (p : Pin) : Bool := v.getLsbD p.toNat

/-- `v | bit(p)`. -/
def withPin (v : PortWord) (p : Pin) : PortWord := v ||| bitMask p

/-- `v & ~bit(p)`. -/
def withoutPin (v : PortWord) (p : Pin) : PortWord := v &&& ~~~ bitMask p

/-- The content of slot `i`, if the buffer has one (R24). -/
def slot (c : Ctx) (i : Nat) : Option Color := c.colors[i]?

/-- Slot `i` takes a colour (R62). -/
def setSlot (i : Nat) (v : Color) (c : Ctx) : Ctx := { c with colors := c.colors.setIfInBounds i v }

/-- Channel `c` of a colour in wire order: green, red, blue (R61). -/
def channel (v : Color) (c : Nat) : Chan := if c = 0 then v.g else if c = 1 then v.r else v.b

/-- `x[k]`: channel `k mod 3` of LED `k div 3` (R61). -/
def bufferByte (c : Ctx) (k : Nat) : Option Chan := (slot c (k / 3)).map (channel · (k % 3))

/-- The bytes of a colour in wire order (R103). -/
def colorBytes (v : Color) : List Chan := [v.g, v.r, v.b]

/-- The active slots `COLORS[0 .. COUNT-1]` in ascending order (R24, R28). -/
def activeColors (c : Ctx) : List Color := c.colors.toList.take c.count.toNat

/-- The active bytes `x[0 .. 3*COUNT-1]` in ascending order (R61). -/
def activeBytes (c : Ctx) : List Chan := (activeColors c).flatMap colorBytes

/-- `3 * COUNT`, the length of the active part in bytes (R61). -/
def byteCount (c : Ctx) : Nat := 3 * c.count.toNat

/-- The bit order of a byte: most-significant bit first (R63, R178). -/
def msbFirst : List Nat := [7, 6, 5, 4, 3, 2, 1, 0]

/-- The largest value of `ITERATION` (R146). -/
def iterationMax : Iteration := BitVec.allOnes 32

/-- The level the block puts on a pin; `z` is "not driven by the block" (R31). -/
inductive PinLevel where
  | low
  | high
  | z
deriving DecidableEq, Repr

/-- The level of pin `p` with direction register `ddr` and output register `port` (R31, D8). -/
def levelOf (ddr port : PortWord) (p : Pin) : PinLevel :=
  if pinBit ddr p then (if pinBit port p then .high else .low) else .z

end Sys2Proof.Machine
end

