-- ==== Sys2Proof/Machine/Ops.lean ====
section
/-! DEFINITION. The shared operations: the pseudocode primitives of 00_scope R14 (events, GPIO accesses, delays), the
error return and the response (00_scope R15, 40 R130), the callback exchange and its walk (40 R135, R145), and the
host's side of the command port (00_scope R12). -/

namespace Sys2Proof.Machine

/-- What an operation answers: its result code and the state it leaves (R15). -/
abbrev OpOutcome := Host.Outcome (Result × State) Fault Refusal

/-- Go on with the next line of a pseudocode, unless the machine has stopped. -/
def andThen {α β : Type} (o : Host.Outcome α Fault Refusal) (f : α → Host.Outcome β Fault Refusal) :
    Host.Outcome β Fault Refusal :=
  match o with
  | .next a => f a
  | .fault r => .fault r
  | .refused r => .refused r

/-- A `for` loop of the pseudocode: the body for each element, in order (R171 lines 7 and 8). -/
def forEach {α : Type} (body : α → State → Host.Outcome State Fault Refusal) :
    List α → State → Host.Outcome State Fault Refusal
  | [], s => .next s
  | a :: as, s => andThen (body a s) (forEach body as)

/-- `return r` (R15). -/
def ret (r : Result) (s : State) : OpOutcome := .next (r, s)

/-- `emit e` (R11, R14). -/
def emit (e : Event) (s : State) : State := { s with trace := s.trace ++ [e] }

/-- `Delay(d)` (R14, R230). -/
def delay (d : DelayLabel) (s : State) : State := emit (.delay d) s

/-- `GpioRead(sel)`: the register's content; no event and no side effect (R66, R70). -/
def gpioRead (s : State) (sel : Sel) : PortWord := s.gpio[sel.toNat]'sel.isLt

/-- `GPIO[sel] <- v`, the whole register (R66). -/
def gpioSet (sel : Sel) (v : PortWord) (s : State) : State :=
  { s with gpio := s.gpio.set sel.toNat v sel.isLt }

/-- `WriteDDR(sel, v)`, the set-direction operation (R14, R66). -/
def writeDdr (sel : Sel) (v : PortWord) (s : State) : State := emit (.wrDdr sel v) (gpioSet sel v s)

/-- `WritePORT(sel, v)`, the write-output operation (R14, R66). -/
def writePort (sel : Sel) (v : PortWord) (s : State) : State := emit (.wrPort sel v) (gpioSet sel v s)

/-- The content of the bound direction register, `DDR` of R31. -/
def boundDdr (s : State) : PortWord := gpioRead s s.ctx.binding.ddr

/-- The content of the bound output register, `PORT` of R31. -/
def boundPort (s : State) : PortWord := gpioRead s s.ctx.binding.port

/-- The level of pin `p` of the bound bank (R31). -/
def pinLevel (s : State) (p : Pin) : PinLevel := levelOf (boundDdr s) (boundPort s) p

/-- A host command ends: its result becomes the `RESP` event, the last of the command, and the block is idle again
(R15, R130, R218). This is how an error is taken: no state is saved and control goes nowhere. -/
def respond (o : OpOutcome) : Host.Outcome State Fault Refusal :=
  andThen o fun rs => .next (emit (.resp rs.1) rs.2)

/-- An illegal word: only the response, no other event and no state change (R95, R130). -/
def illegalWord (s : State) : Host.Outcome State Fault Refusal := respond (ret .invalidArgument s)

/-- The two callback ports (R92, R99). -/
inductive CbPort where
  | init
  | update
deriving DecidableEq, Repr

/-- The init callback's answer: a function of the request alone (R16). -/
def answerInit (s : State) (q : InitRequest) : CbAnswer := (s.icbTable.lookup q).getD (Config.icb0 q)

/-- The update callback's answer: a function of the request alone (R16). -/
def answerUpdate (s : State) (q : UpdateRequest) : CbAnswer := (s.ucbTable.lookup q).getD (Config.ucb0 q)

/-- The answer to the request for LED `i` with slot content `cin`; the update port's request carries `ITERATION`
(R131 line 8b, R143 line 3b). -/
def answer (port : CbPort) (s : State) (i : LedCount) (cin : Color) : CbAnswer :=
  match port with
  | .init => answerInit s ⟨cin, i⟩
  | .update => answerUpdate s ⟨cin, i, s.ctx.iteration⟩

/-- The event of one exchange (R131 line 8c, R143 line 3c). -/
def exchangeEvent (port : CbPort) (s : State) (i : LedCount) (cin : Color) (a : CbAnswer) : Event :=
  match port with
  | .init => .cbInit i cin a.cout a.res
  | .update => .cbUpdate i s.ctx.iteration cin a.cout a.res

/-- One exchange: the slot takes what the callback left in it, whatever the result (R131 lines 8b to 8d, R135; R143
lines 3b to 3d, R145). -/
def exchange (port : CbPort) (i : Nat) (cin : Color) (s : State) : State × CbResult :=
  let idx := BitVec.ofNat 8 i
  let a := answer port s idx cin
  let s₁ := emit (exchangeEvent port s idx cin a) { s with i := idx }
  ({ s₁ with ctx := setSlot i a.cout s₁.ctx }, a.res)

/-- The callback walk over the given indices: one request at a time, the first answer that is not `Success` stops it
and is the result (R131 line 8, R135; R143 line 3, R145). -/
def callbackWalk (port : CbPort) : List Nat → State → OpOutcome
  | [], s => ret .success s
  | i :: is, s =>
    match slot s.ctx i with
    | none => .fault .bufferIndexOutOfRange
    | some cin =>
      match exchange port i cin s with
      | (s', .success) => callbackWalk port is s'
      | (s', .invalidArgument) => ret .invalidArgument s'

/-- The walk of an optional callback: `none` requests nothing (R135, R145). -/
def optionalWalk (port : CbPort) (cb : CbArg) (n : LedCount) (s : State) : OpOutcome :=
  match cb with
  | .absent => ret .success s
  | .supplied => callbackWalk port (List.range n.toNat) s

/-- Run a sub-operation and go on only if it succeeded: "propagate the first failure and do not mask it" (R130,
R217). -/
def onSuccess (o : OpOutcome) (f : State → OpOutcome) : OpOutcome :=
  andThen o fun rs => if rs.1 = .success then f rs.2 else ret rs.1 rs.2

/-- What the idle block finds at its boundary. -/
inductive Offered where
  | nothing
  | word (w : CmdWord) (s : State)
  | ieSetting (v : Bool) (s : State)
deriving DecidableEq, Repr

/-- Take the host's next input (R12). -/
def takeInput (s : State) : Offered :=
  match s.inputs with
  | [] => .nothing
  | .command w :: rest => .word w { s with inputs := rest }
  | .setIe v :: rest => .ieSetting v { s with inputs := rest }

/-- The host sets `IE` between two commands (R32). -/
def hostSetIe (v : Bool) (s : State) : Host.Outcome State Fault Refusal := .next { s with ie := v }

/-- Offer a command word as the next input of an idle block. -/
def offerWord (w : CmdWord) (s : State) : State := { s with phase := .idle, inputs := .command w :: s.inputs }

/-- What the host may read, and when: the five elements of the context, between commands (D30, R22). -/
def hostView (s : State) : Option Ctx := if s.phase = .idle then some s.ctx else none

end Sys2Proof.Machine
end

