-- ==== Sys2Proof/Machine/Encoder.lean ====
section
/-! DEFINITION. The protocol encoder `TRANSMIT` as one big step, the normative definition (41_protocol_encoder R171),
from the pieces the spec names: pattern snapshot, interrupt lock, pulse-width generator, walker, reset latch. -/

namespace Sys2Proof.Machine

/-- Lines 1 and 2: lifecycle first, then length (R172). `none` means both pass. -/
def transmitCheck (s : State) : Option Result :=
  if isInitialized s = false ∨ isPoweredOn s = false then some .invalidArgument
  else if byteCount s.ctx = 0 then some .invalidData
  else none

/-- Lines 3 to 5, the pattern snapshot: one read, two patterns (R173). -/
def snapshot (s : State) : State :=
  { s with patHi := withPin (boundPort s) s.ctx.binding.data, patLo := withoutPin (boundPort s) s.ctx.binding.data }

/-- Line 6, the entry of the critical section (R175). -/
def lock (s : State) : State := emit (.irqOff s.ie) { s with savedIe := s.ie, ie := false }

/-- Line 17, the exit of the critical section (R185, R191). -/
def unlock (s : State) : State :=
  emit (.irqRestore s.savedIe) { s with ie := s.savedIe, phase := .idle }

/-- The walker moves to bit `j` of byte `k` (lines 7 and 8). -/
def walkTo (k j : Nat) (s : State) : State := { s with k := BitVec.ofNat 10 k, j := BitVec.ofNat 3 j }

/-- Lines 9 and 10, phase A (R180). -/
def highPhase (s : State) : State :=
  { delay .phaseA (writePort s.ctx.binding.port s.patHi s) with phase := .highA }

/-- Lines 11 and 12 for the bit value `v`, phase B (R181): only the presence of the write depends on the bit. -/
def windowPhase (v : Bool) (s : State) : State :=
  { delay .phaseB (if v then s else writePort s.ctx.binding.port s.patLo s) with phase := .winB }

/-- The bit the walker stands at, `x[K][J]`. -/
def currentBit (s : State) : Option Bool := (bufferByte s.ctx s.k.toNat).map (·.getLsbD s.j.toNat)

/-- Lines 11 and 12 (R181, R188). -/
def window (s : State) : Host.Outcome State Fault Refusal :=
  match currentBit s with
  | none => .fault .bufferIndexOutOfRange
  | some v => .next (windowPhase v s)

/-- Lines 13 and 14, phase C (R182). -/
def lowPhase (s : State) : State :=
  { delay .phaseC (writePort s.ctx.binding.port s.patLo s) with phase := .lowC }

/-- Lines 15 and 16, the reset latch (R184). -/
def latch (s : State) : State :=
  { delay .reset (writePort s.ctx.binding.port s.patLo s) with phase := .reset }

/-- The loop body, lines 9 to 14: one bit-pulse (R180 to R182). -/
def bitPulse (k j : Nat) (s : State) : Host.Outcome State Fault Refusal :=
  andThen (window (highPhase (walkTo k j s))) fun s' => .next (lowPhase s')

/-- The inner loop, line 8: the eight bits of byte `k` (R178). -/
def bytePulses (k : Nat) : State → Host.Outcome State Fault Refusal := forEach (bitPulse k) msbFirst

/-- The outer loop, line 7: the active bytes in ascending order (R177). -/
def walk (s : State) : Host.Outcome State Fault Refusal := forEach bytePulses (List.range (byteCount s.ctx)) s

/-- `TRANSMIT()` (R171). -/
def opTransmit (s : State) : OpOutcome :=
  match transmitCheck s with
  | some r => ret r s
  | none => andThen (walk (lock (snapshot s))) fun s' => ret .success (unlock (latch s'))

end Sys2Proof.Machine
end

