-- ==== Sys2Proof/Machine/BitTimer.lean ====
section
/-! DEFINITION. The bit-timer: `TRANSMIT` as a state machine with one step per timer phase (41_protocol_encoder R186 to
R191). No transition depends on a host command, an interrupt or a callback (R192, R198). -/

namespace Sys2Proof.Machine

/-- `T_IDLE` to `T_HIGH_A` (R187). -/
def timerStart (s : State) : State := highPhase (walkTo 0 7 (lock (snapshot s)))

/-- Leaving `T_LOW_C` (R190): the next bit of the byte, the next byte, or the reset latch. -/
def timerNextBit (s : State) : State :=
  if 0 < s.j.toNat then highPhase { s with j := s.j - 1 }
  else if s.k.toNat + 1 < byteCount s.ctx then highPhase { s with k := s.k + 1, j := 7 }
  else latch s

/-- One transition of the bit-timer. In `T_IDLE` a failing precondition leaves it where it is (R187). -/
def timerStep (s : State) : Host.Outcome State Fault Refusal :=
  match s.phase with
  | .idle => .next (if transmitCheck s = none then timerStart s else s)
  | .highA => window s
  | .winB => .next (lowPhase s)
  | .lowC => .next (timerNextBit s)
  | .reset => .next (unlock s)

/-- `n` transitions. -/
def timerRun : Nat → State → Host.Outcome State Fault Refusal
  | 0, s => .next s
  | n + 1, s => andThen (timerStep s) (timerRun n)

end Sys2Proof.Machine
end

