-- ==== Sys2Proof/Machine/Power.lean ====
section
/-! DEFINITION. The operations `POWER_OFF`, `UPDATE` and `POWER_ON` (40_device_ops R137 to R146). An `op…` is the
operation, whoever starts it; an `exec…` is the host command: the operation and then its response (R130). -/

namespace Sys2Proof.Machine

/-- The check that `POWER_OFF` and `UPDATE` share: initialized, then powered on (R140, R143 lines 1 and 2). -/
def poweredCheck (s : State) : Option Result :=
  if isInitialized s = false then some .invalidArgument
  else if isPoweredOn s = false then some .invalidState
  else none

/-- The check of `POWER_ON`: initialized, then not powered on (R137 lines 1 and 2). -/
def unpoweredCheck (s : State) : Option Result :=
  if isInitialized s = false then some .invalidArgument
  else if isPoweredOn s = true then some .invalidState
  else none

/-- Lines 3 to 5 of `POWER_ON` and of `POWER_OFF`: the power-enable bit by read-modify-write, `STATUS.P`, the settle
delay (R137, R140). -/
def switchPower (on : Bool) (s : State) : State :=
  let v := if on then withPin (boundPort s) s.ctx.binding.pwr else withoutPin (boundPort s) s.ctx.binding.pwr
  delay .settle (setPoweredOn on (writePort s.ctx.binding.port v s))

/-- `POWER_OFF()` (R140). -/
def opPowerOff (s : State) : OpOutcome :=
  match poweredCheck s with
  | some r => ret r s
  | none => ret .success (switchPower false s)

/-- `UPDATE` step 6, `ITERATION <- ITERATION + 1`; at the maximum the spec gives it no meaning (R146, D12). -/
def countUpdate (s : State) : OpOutcome :=
  if s.ctx.iteration = iterationMax then .refused .iterationAtMaximum
  else ret .success { s with ctx := { s.ctx with iteration := s.ctx.iteration + 1 } }

/-- `UPDATE(ucb)` (R143). -/
def opUpdate (ucb : CbArg) (s : State) : OpOutcome :=
  match poweredCheck s with
  | some r => ret r s
  | none => onSuccess (onSuccess (optionalWalk .update ucb s.ctx.count s) opTransmit) countUpdate

/-- `POWER_ON(ucb)` (R137). -/
def opPowerOn (ucb : CbArg) (s : State) : OpOutcome :=
  match unpoweredCheck s with
  | some r => ret r s
  | none => opUpdate ucb (switchPower true s)

/-- The host command `POWER_ON`. -/
def execPowerOn (ucb : CbArg) (s : State) : Host.Outcome State Fault Refusal := respond (opPowerOn ucb s)

/-- The host command `POWER_OFF`. -/
def execPowerOff (s : State) : Host.Outcome State Fault Refusal := respond (opPowerOff s)

/-- The host command `UPDATE`. -/
def execUpdate (ucb : CbArg) (s : State) : Host.Outcome State Fault Refusal := respond (opUpdate ucb s)

end Sys2Proof.Machine
end

