-- ==== Sys2Proof/Machine/Lifetime.lean ====
section
/-! DEFINITION. The operations that begin and end a context's lifetime: `UNINIT` and `INIT` (40_device_ops R131 to R136,
R147 to R149). -/

namespace Sys2Proof.Machine

/-- Lines 3 to 5 of `UNINIT`: both bound registers to 0, direction first, then the zero context (R147, R149). -/
def clearContext (s : State) : State :=
  let b := s.ctx.binding
  { writePort b.port 0 (writeDdr b.ddr 0 s) with ctx := Ctx.zero }

/-- `UNINIT()` (R147). -/
def opUninit (s : State) : OpOutcome :=
  if isInitialized s = false then ret .invalidArgument s
  else onSuccess (if isPoweredOn s then opPowerOff s else ret .success s) fun s' => ret .success (clearContext s')

/-- Lines 3 to 7 of `INIT`: binding, direction by read-modify-write, output register 0, `STATUS.I`, `COUNT` (R134). -/
def bindPins (b : Binding) (n : LedCount) (s : State) : State :=
  let s₁ := { s with ctx := { s.ctx with binding := b } }
  let s₂ := writeDdr b.ddr (withPin (withPin (gpioRead s₁ b.ddr) b.pwr) b.data) s₁
  let s₃ := setInitialized true (writePort b.port 0 s₂)
  { s₃ with ctx := { s₃.ctx with count := n } }

/-- Line 9 of `INIT`: power on with the same callback operand; if that fails, roll back with `UNINIT`, whose own
result is discarded, and surface the first error (R136, R217). -/
def powerOnOrRollBack (ucb : CbArg) (s : State) : OpOutcome :=
  andThen (opPowerOn ucb s) fun rs =>
    if rs.1 = .success then ret .success rs.2
    else andThen (opUninit rs.2) fun rs' => ret rs.1 rs'.2

/-- `INIT(b, n, icb, pwr, ucb)` (R131). The range check comes before anything else (R132). -/
def opInit (b : Binding) (n : LedCount) (icb : CbArg) (pwr : Bool) (ucb : CbArg) (s : State) : OpOutcome :=
  if n = 0 ∨ Config.maxLeds < n.toNat then ret .invalidArgument s
  else
    onSuccess (if isInitialized s then opUninit s else ret .success s) fun s₁ =>
      onSuccess (optionalWalk .init icb n (bindPins b n s₁)) fun s₂ =>
        if pwr then powerOnOrRollBack ucb s₂ else ret .success s₂

/-- The host command `INIT`. -/
def execInit (b : Binding) (n : LedCount) (icb : CbArg) (pwr : Bool) (ucb : CbArg) (s : State) :
    Host.Outcome State Fault Refusal :=
  respond (opInit b n icb pwr ucb s)

/-- The host command `UNINIT`. -/
def execUninit (s : State) : Host.Outcome State Fault Refusal := respond (opUninit s)

end Sys2Proof.Machine
end

