-- ==== Sys2Proof/Machine/Dispatch.lean ====
section
/-! DEFINITION. One arm per command (40_device_ops R130). -/

namespace Sys2Proof.Machine

def exec (i : Instr) (s : State) : Host.Outcome State Fault Refusal :=
  match i with
  | .init b n icb pwr ucb => Sys2Proof.Machine.execInit b n icb pwr ucb s
  | .powerOn ucb => Sys2Proof.Machine.execPowerOn ucb s
  | .powerOff => Sys2Proof.Machine.execPowerOff s
  | .update ucb => Sys2Proof.Machine.execUpdate ucb s
  | .uninit => Sys2Proof.Machine.execUninit s

end Sys2Proof.Machine
end

