-- ==== Sys2Proof/Machine/Step.lean ====
section
/-! DEFINITION. One step of the block. Idle, it takes the host's next input and performs it whole (00_scope R12,
40_device_ops R130); with nothing offered it waits (70_reset_and_hazards R252). With a transmission in progress it
accepts nothing and the bit-timer makes one transition (41_protocol_encoder R186, R192). -/

namespace Sys2Proof.Machine

/-- A command word is performed (R130). -/
def performWord (w : CmdWord) (s : State) : Host.Outcome State Fault Refusal :=
  match decode w with
  | .command i => exec i s
  | .illegal _ => illegalWord s

/-- One step. -/
def step (s : State) : Host.Outcome State Fault Refusal :=
  match s.phase with
  | .idle =>
    match takeInput s with
    | .nothing => .next s
    | .word w s' => performWord w s'
    | .ieSetting v s' => hostSetIe v s'
  | .highA | .winB | .lowC | .reset => timerStep s

/-- The table word `w` is the next thing the block takes: it is the host's next input, and the block is idle. -/
def State.withFetchWord (s : State) (nbits w : Nat) : State := offerWord (tableWord nbits w) s

end Sys2Proof.Machine
end

