-- ==== Sys2Proof/Machine/Wire.lean ====
section
/-! DEFINITION. The wire: the normative encoding of a frame as bit-pulses on the data line (30_encoding R101 to R104), a
frame as output-register writes (41_protocol_encoder R180 to R184, in the shorthand of 95_test_vectors section 0), and
the projection of a trace onto one pin (R193). No meaning calls these; statements compare the machine with them. -/

namespace Sys2Proof.Machine

/-- A stretch of one level, as long as the delays it holds (R193). -/
structure Segment where
  level : Bool
  delays : List DelayLabel
deriving DecidableEq, Repr

/-- `P(v)`: one bit-pulse (R101). -/
def pulse (v : Bool) : List Segment :=
  if v then [⟨true, [.phaseA, .phaseB]⟩, ⟨false, [.phaseC]⟩]
  else [⟨true, [.phaseA]⟩, ⟨false, [.phaseB, .phaseC]⟩]

/-- The bits of a byte in wire order: most-significant bit first (R63, R102). -/
def wireBits (v : Chan) : List Bool := msbFirst.map v.getLsbD

/-- `enc8(v)` (R102). -/
def encByte (v : Chan) : List Segment := (wireBits v).flatMap pulse

/-- `encLED(c)` (R103). -/
def encLed (c : Color) : List Segment := (colorBytes c).flatMap encByte

/-- Delays added to the last segment. -/
def extendLast (ds : List DelayLabel) : List Segment → List Segment
  | [] => []
  | [g] => [{ g with delays := g.delays ++ ds }]
  | g :: g' :: gs => g :: extendLast ds (g' :: gs)

/-- `encFrame`: the active LEDs in ascending order, then the data line held low for `T_RESET` (R104). The line is
already low, so the latch lengthens the last low tail (R193). -/
def encFrame (cs : List Color) : List Segment := extendLast [.reset] (cs.flatMap encLed)

/-- The bits of a frame by position: bit `n` is `x[n div 8][7 - n mod 8]` (R63). -/
def frameBit (c : Ctx) (n : Nat) : Option Bool := (bufferByte c (n / 8)).map (·.getLsbD (7 - n % 8))

/-- The events of one bit-pulse on output register `sel` with patterns `hi` and `lo` (R180 to R182). -/
def pulseEvents (sel : Sel) (hi lo : PortWord) (v : Bool) : List Event :=
  [.wrPort sel hi, .delay .phaseA] ++ (if v then [] else [.wrPort sel lo])
    ++ [.delay .phaseB, .wrPort sel lo, .delay .phaseC]

/-- The events of one byte (R178). -/
def byteEvents (sel : Sel) (hi lo : PortWord) (v : Chan) : List Event :=
  (wireBits v).flatMap (pulseEvents sel hi lo)

/-- `TX(sel, hi, lo, bytes, e)`: the events of one successful `TRANSMIT` (95_test_vectors section 0; R171). -/
def txEvents (sel : Sel) (hi lo : PortWord) (bytes : List Chan) (e : Bool) : List Event :=
  [.irqOff e] ++ bytes.flatMap (byteEvents sel hi lo) ++ [.wrPort sel lo, .delay .reset, .irqRestore e]

/-- The scan of R193 with the current segment. -/
def waveFrom (sel : Sel) (p : Pin) : Segment → List Event → List Segment
  | cur, [] => [cur]
  | cur, .delay d :: es => waveFrom sel p { cur with delays := cur.delays ++ [d] } es
  | cur, .wrPort r v :: es =>
    if r = sel ∧ pinBit v p ≠ cur.level then cur :: waveFrom sel p ⟨pinBit v p, []⟩ es else waveFrom sel p cur es
  | cur, .wrDdr .. :: es => waveFrom sel p cur es
  | cur, .irqOff _ :: es => waveFrom sel p cur es
  | cur, .irqRestore _ :: es => waveFrom sel p cur es
  | cur, .cbInit .. :: es => waveFrom sel p cur es
  | cur, .cbUpdate .. :: es => waveFrom sel p cur es
  | cur, .resp _ :: es => waveFrom sel p cur es

/-- A first segment with no labels lasts no time and is not listed (log 10). -/
def dropEmptyHead : List Segment → List Segment
  | ⟨l, []⟩ :: gs => if gs = [] then [⟨l, []⟩] else gs
  | gs => gs

/-- `wave(t, s, p, l0)`: the projection of a trace onto pin `p` of output register `sel`, the level before it being
`l0` (R193). -/
def wave (es : List Event) (sel : Sel) (p : Pin) (l0 : Bool) : List Segment :=
  dropEmptyHead (waveFrom sel p ⟨l0, []⟩ es)

/-- An event is a write of the output register. -/
def Event.isPortWrite : Event → Bool
  | .wrPort .. => true
  | _ => false

/-- An event is a delay. -/
def Event.isDelay : Event → Bool
  | .delay _ => true
  | _ => false

/-- An event enters the critical section. -/
def Event.isIrqOff : Event → Bool
  | .irqOff _ => true
  | _ => false

/-- An event leaves the critical section. -/
def Event.isIrqRestore : Event → Bool
  | .irqRestore _ => true
  | _ => false

/-- How long the delays of a trace last together, in nanoseconds (R196, R266). -/
def traceNs : List Event → Nat
  | [] => 0
  | .delay d :: es => d.ns + traceNs es
  | _ :: es => traceNs es

/-- The number of zero bits among the active bytes, `z` of R196. -/
def zeroBits (bytes : List Chan) : Nat := (bytes.flatMap wireBits).count false

/-- The number of segments at a high level: one for each rising edge of a wave that starts low (R196). -/
def highSegments (gs : List Segment) : Nat := (gs.filter (·.level)).length

end Sys2Proof.Machine
end

