-- ==== Sys2Proof/Machine/Effects.lean ====
section
/-! DEFINITION. What an operation leaves behind, written as one state, for statements to compare the machine with: each
is a record of the fields that change, in the words of the rule it cites. No meaning calls these. -/

namespace Sys2Proof.Machine

/-- The answer of a port to the request for LED `i` whose slot holds `cin`. -/
def answerAt (port : CbPort) (s : State) (i : Nat) (cin : Color) : CbAnswer := answer port s (BitVec.ofNat 8 i) cin

/-- Every request for an LED below `n` would be answered with `Success`. -/
def AllSucceed (port : CbPort) (s : State) (n : Nat) : Prop :=
  ∀ i cin, i < n → slot s.ctx i = some cin → (answerAt port s i cin).res = .success

/-- The requests below `m` would succeed and the one for LED `m` would fail. -/
def FailsFirstAt (port : CbPort) (s : State) (m : Nat) : Prop :=
  AllSucceed port s m ∧ ∃ cin, slot s.ctx m = some cin ∧ (answerAt port s m cin).res = .invalidArgument

/-- The buffer after the requests below `m`: those slots hold what the callback left in them (R135, R145). -/
def walkedColors (port : CbPort) (s : State) (m : Nat) : Vector Color Config.maxLeds :=
  s.ctx.colors.mapIdx fun i cin => if i < m then (answerAt port s i cin).cout else cin

/-- The events of the requests below `m`, in ascending order, each with the slot's content before it. -/
def walkEvents (port : CbPort) (s : State) (m : Nat) : List Event :=
  (s.ctx.colors.toList.take m).mapIdx fun i cin =>
    exchangeEvent port s (BitVec.ofNat 8 i) cin (answerAt port s i cin)

/-- The state after a walk that made the requests `0 .. m-1`. -/
def walked (port : CbPort) (m : Nat) (s : State) : State :=
  { s with
    ctx := { s.ctx with colors := walkedColors port s m }
    i := if m = 0 then s.i else BitVec.ofNat 8 (m - 1)
    trace := s.trace ++ walkEvents port s m }

/-- How many requests the walk of an optional callback over `n` LEDs makes when none fails. -/
def requests (cb : CbArg) (n : LedCount) : Nat :=
  match cb with
  | .absent => 0
  | .supplied => n.toNat

/-- An optional callback's walk over `n` LEDs meets no failing answer. -/
def CallbackSucceeds (port : CbPort) (cb : CbArg) (s : State) (n : LedCount) : Prop :=
  cb = .supplied → AllSucceed port s n.toNat

/-- The state after one successful `TRANSMIT` (R171): the patterns, the saved flag, the walker at its end, the output
register at the low pattern, the frame on the trace; `IE` as before. -/
def transmitted (s : State) : State :=
  let b := s.ctx.binding
  let hi := withPin (boundPort s) b.data
  let lo := withoutPin (boundPort s) b.data
  { s with
    patHi := hi
    patLo := lo
    savedIe := s.ie
    k := BitVec.ofNat 10 (byteCount s.ctx - 1)
    j := 0
    phase := .idle
    gpio := s.gpio.set b.port.toNat lo b.port.isLt
    trace := s.trace ++ txEvents b.port hi lo (activeBytes s.ctx) s.ie }

/-- The state after a successful power switch, `POWER_ON` or `POWER_OFF` lines 3 to 5 (R137, R140). -/
def powerSwitched (on : Bool) (s : State) : State :=
  let b := s.ctx.binding
  let v := if on then boundPort s ||| bitMask b.pwr else boundPort s &&& ~~~ bitMask b.pwr
  { s with
    ctx := { s.ctx with status := { s.ctx.status with poweredOn := on } }
    gpio := s.gpio.set b.port.toNat v b.port.isLt
    trace := s.trace ++ [.wrPort b.port v, .delay .settle] }

/-- The state after `ITERATION <- ITERATION + 1` below the maximum (R146). -/
def counted (s : State) : State := { s with ctx := { s.ctx with iteration := s.ctx.iteration + 1 } }

/-- The state after `UNINIT` lines 3 to 5 (R149). -/
def cleared (s : State) : State :=
  let b := s.ctx.binding
  { s with
    ctx := Ctx.zero
    gpio := (s.gpio.set b.ddr.toNat 0 b.ddr.isLt).set b.port.toNat 0 b.port.isLt
    trace := s.trace ++ [.wrDdr b.ddr 0, .wrPort b.port 0] }

/-- The state after `INIT` lines 3 to 7 (R134). -/
def bound (b : Binding) (n : LedCount) (s : State) : State :=
  let v := gpioRead s b.ddr ||| bitMask b.pwr ||| bitMask b.data
  { s with
    ctx := { s.ctx with status := { s.ctx.status with initialized := true }, binding := b, count := n }
    gpio := (s.gpio.set b.ddr.toNat v b.ddr.isLt).set b.port.toNat 0 b.port.isLt
    trace := s.trace ++ [.wrDdr b.ddr v, .wrPort b.port 0] }

/-- The state after a response (R130). -/
def responded (r : Result) (s : State) : State := { s with trace := s.trace ++ [.resp r] }

end Sys2Proof.Machine
end

