-- ==== Sys2Proof/Safety.lean ====
section
/-! DEFINITION. What a claim means by a well-formed state, by lines at rest, and by two states that agree on what a
rule may read. -/

namespace Sys2Proof.Machine

/-- The invariants of the block between two commands (10_state R25, R28, R29, R36, R40). -/
structure State.Inv (s : State) : Prop where
  /-- "`PoweredOn ⇒ Initialized`" (R28 a) -/
  powered_init : isPoweredOn s = true → isInitialized s = true
  /-- in both initialized states `1 <= COUNT` (R25) -/
  count_pos : isInitialized s = true → 1 ≤ s.ctx.count.toNat
  /-- `COUNT <= MAX` (R25) -/
  count_le : s.ctx.count.toNat ≤ Config.maxLeds
  /-- `Unbound` is the zero context (R40) -/
  unbound_zero : isInitialized s = false → s.ctx = Ctx.zero
  /-- the slots at and beyond `COUNT` hold zero (R29) -/
  tail_zero : ∀ i, s.ctx.count.toNat ≤ i → i < Config.maxLeds → slot s.ctx i = some ⟨0, 0, 0⟩
  /-- no transmission is in progress (R36) -/
  idle : s.phase = .idle

/-- The two lines at rest (40_device_ops R152): with selectors that differ and pins that differ, in both initialized
states both pins are outputs, the data line is low, and the power-enable line is high exactly when powered on. -/
def State.LinesAtRest (s : State) : Prop :=
  isInitialized s = true → s.ctx.binding.ddr ≠ s.ctx.binding.port → s.ctx.binding.pwr ≠ s.ctx.binding.data →
    pinLevel s s.ctx.binding.data = .low ∧
    pinLevel s s.ctx.binding.pwr = (if isPoweredOn s then .high else .low)

/-- The count is one that `INIT` accepts (R132). -/
abbrev CountOk (n : LedCount) : Prop := 1 ≤ n.toNat ∧ n.toNat ≤ Config.maxLeds

/-- A host command completed with response `r`: the response is the last event, and the events before it, `es`, hold no
other response (R12, R130). -/
def Answered (i : Instr) (s s' : State) (es : List Event) (r : Result) : Prop :=
  exec i s = .next s' ∧ s'.trace = s.trace ++ es ++ [.resp r] ∧ ∀ code, .resp code ∉ es

/-- What `INIT` proceeds on once its count check has passed: the state itself, or what the implicit `UNINIT` leaves
(R133). -/
def beforeBinding (s : State) : State :=
  match lifecycle s with
  | .unbound => s
  | .initializedOff => cleared s
  | .initializedOn => cleared (powerSwitched false s)

/-- What a failing answer of an optional callback adds to the outcomes of a command: nothing if there is no callback. -/
def ifCallback (cb : CbArg) (o : Result × Lifecycle) : List (Result × Lifecycle) :=
  match cb with
  | .absent => []
  | .supplied => [o]

/-- The lifecycle as a transition table: the results a command may answer from a lifecycle state, each with the state
after it (the table of 40_device_ops R150). -/
def transitions : Instr → Lifecycle → List (Result × Lifecycle)
  | .init _ n icb pwr ucb, l =>
    if CountOk n then
      ifCallback icb (.invalidArgument, .initializedOff)
        ++ (if pwr then (.success, .initializedOn) :: ifCallback ucb (.invalidArgument, .unbound)
          else [(.success, .initializedOff)])
    else [(.invalidArgument, l)]
  | .powerOn _, .unbound => [(.invalidArgument, .unbound)]
  | .powerOn ucb, .initializedOff =>
    (.success, .initializedOn) :: ifCallback ucb (.invalidArgument, .initializedOn)
  | .powerOn _, .initializedOn => [(.invalidState, .initializedOn)]
  | .powerOff, .unbound => [(.invalidArgument, .unbound)]
  | .powerOff, .initializedOff => [(.invalidState, .initializedOff)]
  | .powerOff, .initializedOn => [(.success, .initializedOff)]
  | .update _, .unbound => [(.invalidArgument, .unbound)]
  | .update _, .initializedOff => [(.invalidState, .initializedOff)]
  | .update ucb, .initializedOn =>
    (.success, .initializedOn) :: ifCallback ucb (.invalidArgument, .initializedOn)
  | .uninit, .unbound => [(.invalidArgument, .unbound)]
  | .uninit, .initializedOff => [(.success, .unbound)]
  | .uninit, .initializedOn => [(.success, .unbound)]

/-- The GPIO registers a command may write: the two that the binding selects, and for `INIT` also the two that the new
binding selects (R35, R134, R174). -/
def mayWrite (i : Instr) (s : State) (sel : Sel) : Prop :=
  match i with
  | .init b .. =>
    sel = b.ddr ∨ sel = b.port ∨ (isInitialized s = true ∧ (sel = s.ctx.binding.ddr ∨ sel = s.ctx.binding.port))
  | .powerOn _ | .powerOff | .update _ => sel = s.ctx.binding.port
  | .uninit => sel = s.ctx.binding.ddr ∨ sel = s.ctx.binding.port

/-- Two states agree on everything but the transient registers `PAT_HI`, `PAT_LO`, `SAVED_IE`, `K`, `J`, `I` (R33, R34,
R36, R37). -/
structure SameButTransients (s t : State) : Prop where
  ctx : s.ctx = t.ctx
  gpio : s.gpio = t.gpio
  ie : s.ie = t.ie
  phase : s.phase = t.phase
  trace : s.trace = t.trace
  inputs : s.inputs = t.inputs
  icbTable : s.icbTable = t.icbTable
  ucbTable : s.ucbTable = t.ucbTable

end Sys2Proof.Machine
end

