-- ==== Sys2Proof/Certificates/Slice0/Obligations.lean ====
section
/-! DEFINITION. The statements for the provers. Each cites the rule of the spec it formalises; the closed forms they
compare the machine with are those of Machine/Effects.lean and Machine/Wire.lean. -/

open Sys2Proof Sys2Proof.Machine

/-! ## Encoding -/

/-- Words written out from the table of 30_encoding R91 decode to the commands they stand for, and illegal words to the
reason they are illegal (R95). -/
def Obligations.WrittenWordsDecode : Prop :=
  decode 0x21010339 = .command (.init ⟨1, 2, 0, 1⟩ 3 .supplied true .supplied) ∧
  decode 0x432E4101 = .command (.init ⟨3, 4, 5, 6⟩ 65 .absent false .absent) ∧
  decode 0x00000012 = .command (.powerOn .supplied) ∧
  decode 0x00000003 = .command .powerOff ∧
  decode 0x00000014 = .command (.update .supplied) ∧
  decode 0x00000005 = .command .uninit ∧
  decode 0x00000000 = .illegal .reservedOpcode ∧
  decode 0x21410101 = .illegal .reservedField ∧
  decode 0x0000000A = .illegal .unusedField

/-- Decoding the word of any command gives the command back, with every operand at every value: no bit of an operand is
dropped (R91 to R94). -/
def Obligations.DecodeEncodeRoundTrip : Prop := ∀ i : Instr, decode (encode i) = .command i

/-- A word that decodes to a command is the one word of that command: every bit of it is determined (R91, R94). -/
def Obligations.EachCommandHasOneWord : Prop :=
  ∀ (w : CmdWord) (i : Instr), decode w = .command i → encode i = w

/-- A word decodes to the command of a row of the table of R94 exactly when `w & mask = match`. -/
def Obligations.WordsSelectTheirRow : Prop :=
  ∀ w : CmdWord,
    ((∃ b n icb pwr ucb, decode w = .command (.init b n icb pwr ucb)) ↔ w &&& 0x00C000C7#32 = 0x00000001#32) ∧
    ((∃ ucb, decode w = .command (.powerOn ucb)) ↔ w &&& 0xFFFFFFEF#32 = 0x00000002#32) ∧
    (decode w = .command .powerOff ↔ w &&& 0xFFFFFFFF#32 = 0x00000003#32) ∧
    ((∃ ucb, decode w = .command (.update ucb)) ↔ w &&& 0xFFFFFFEF#32 = 0x00000004#32) ∧
    (decode w = .command .uninit ↔ w &&& 0xFFFFFFFF#32 = 0x00000005#32)

/-- The decoder is total and unambiguous (R96): a word that selects no row of the table is illegal, a word that selects
one is a command, and no word selects two rows. -/
def Obligations.EveryWordIsOneCommandOrIllegal : Prop :=
  ∀ w : CmdWord,
    ((∃ why, decode w = .illegal why) ↔ ∀ r ∈ opcodeRows, r.selects w = false) ∧
    ((∃ i, decode w = .command i) ↔ ∃ r ∈ opcodeRows, r.selects w = true) ∧
    (∀ r ∈ opcodeRows, ∀ r' ∈ opcodeRows, r.selects w = true → r'.selects w = true → r = r')

/-- The operands of a command are read from the bits R91 and R92 give them. -/
def Obligations.OperandsAreReadFromTheirBits : Prop :=
  ∀ w : CmdWord,
    (w &&& 0x00C000C7#32 = 0x00000001#32 →
      decode w = .command (.init
        ⟨w.extractLsb' 24 4, w.extractLsb' 28 4, w.extractLsb' 19 3, w.extractLsb' 16 3⟩ (w.extractLsb' 8 8)
        (if w.getLsbD 3 then .supplied else .absent) (w.getLsbD 5) (if w.getLsbD 4 then .supplied else .absent))) ∧
    (w &&& 0xFFFFFFEF#32 = 0x00000002#32 →
      decode w = .command (.powerOn (if w.getLsbD 4 then .supplied else .absent))) ∧
    (w &&& 0xFFFFFFEF#32 = 0x00000004#32 →
      decode w = .command (.update (if w.getLsbD 4 then .supplied else .absent)))

/-! ## The step -/

/-- An idle block takes the host's next word and performs the command it decodes to, whole (R12, R130); a table word
placed by `withFetchWord` is that next word. -/
def Obligations.StepPerformsTheDecodedCommand : Prop :=
  (∀ (s : State) (w : CmdWord) (rest : List HostInput) (i : Instr),
    s.phase = .idle → s.inputs = .command w :: rest → decode w = .command i →
      step s = exec i { s with inputs := rest }) ∧
  (∀ (s : State) (nbits w : Nat) (i : Instr), decodeTableWord nbits w = some i →
    step (s.withFetchWord nbits w) = exec i { s with phase := .idle })

/-- An illegal word, one that selects no row of the table, changes no state but the trace, which gains only
`RESP(InvalidArgument)`; the block is then idle with the next input before it. Every count is a legal encoding of `INIT`
(R95). -/
def Obligations.IllegalWordOnlyResponds : Prop :=
  (∀ (s : State) (w : CmdWord) (rest : List HostInput),
    s.phase = .idle → s.inputs = .command w :: rest → (∀ r ∈ opcodeRows, r.selects w = false) →
      step s = .next { s with inputs := rest, trace := s.trace ++ [.resp .invalidArgument] }) ∧
  (∀ (w : CmdWord) (n : LedCount), w &&& 0x00C000C7#32 = 0x00000001#32 → w.extractLsb' 8 8 = n →
    ∃ b icb pwr ucb, decode w = .command (.init b n icb pwr ucb))

/-- With nothing offered the idle block waits (R252); between commands the host may set `IE`, which changes nothing else
(R32). -/
def Obligations.IdleBlockWaitsAndHostSetsIe : Prop :=
  ∀ s : State, s.phase = .idle →
    (s.inputs = [] → step s = .next s) ∧
    (∀ v rest, s.inputs = .setIe v :: rest → step s = .next { s with inputs := rest, ie := v })

/-- While a transmission is in progress the block accepts nothing: whatever the host offers and whatever the callbacks
are, the bit-timer makes the same transition (R12, R192: no transition on any external input). -/
def Obligations.BusyBlockIgnoresTheOutside : Prop :=
  ∀ (s s' : State) (q : List HostInput) (t : List (InitRequest × CbAnswer)) (u : List (UpdateRequest × CbAnswer)),
    s.phase ≠ .idle → step s = .next s' →
      s'.inputs = s.inputs ∧
      step { s with inputs := q, icbTable := t, ucbTable := u } =
        .next { s' with inputs := q, icbTable := t, ucbTable := u }

/-! ## Reset -/

/-- Reset puts the context in the zero context and the environment registers at the parameters, whatever they are; the
block is idle and the trace is empty (R250 to R252). `State.reset` is that with the all-zero `GPIO0` of R251; its `IE0`
is the model's choice (log 2), of which this says nothing. -/
def Obligations.ResetIsTheZeroContext : Prop :=
  (∀ (ie0 : Bool) (gpio0 : Vector PortWord Config.numRegs),
    let s := State.resetWith ie0 gpio0
    isInitialized s = false ∧ isPoweredOn s = false ∧ s.ctx.binding = ⟨0, 0, 0, 0⟩ ∧ s.ctx.count = 0 ∧
      (∀ i < Config.maxLeds, slot s.ctx i = some ⟨0, 0, 0⟩) ∧ s.ctx.iteration = 0 ∧
      s.gpio = gpio0 ∧ s.ie = ie0 ∧ s.phase = .idle ∧ s.trace = []) ∧
  (∃ ie0, State.reset = State.resetWith ie0 (Vector.replicate Config.numRegs 0)) ∧
  lifecycle State.reset = .unbound

/-- The invariants hold at reset, for every value of the parameters, whatever the host offers and whatever callbacks are
attached (R28: "They hold after reset"). -/
def Obligations.ResetMeetsTheInvariants : Prop :=
  ∀ (ie0 : Bool) (gpio0 : Vector PortWord Config.numRegs) (q : List HostInput)
    (t : List (InitRequest × CbAnswer)) (u : List (UpdateRequest × CbAnswer)),
    let s := { State.resetWith ie0 gpio0 with inputs := q, icbTable := t, ucbTable := u }
    s.Inv ∧ s.LinesAtRest

/-! ## The commands -/

/-- `POWER_OFF` (R140, R141): its two checks in their order, each refusal without side effect; else the power-enable bit
is cleared and no other bit, `STATUS.P` is cleared, and the settle delay follows. -/
def Obligations.PowerOffDefinition : Prop :=
  ∀ s : State,
    (isInitialized s = false → exec .powerOff s = .next (responded .invalidArgument s)) ∧
    (isInitialized s = true → isPoweredOn s = false → exec .powerOff s = .next (responded .invalidState s)) ∧
    (isInitialized s = true → isPoweredOn s = true →
      exec .powerOff s = .next (responded .success (powerSwitched false s)))

/-- `POWER_ON` (R137, R138): its two checks in their order, each refusal without side effect; else the power-enable bit
is set and no other bit, `STATUS.P` is set, the settle delay follows, and the result is that of a full `UPDATE`. -/
def Obligations.PowerOnDefinition : Prop :=
  ∀ (s : State) (ucb : CbArg),
    (isInitialized s = false → exec (.powerOn ucb) s = .next (responded .invalidArgument s)) ∧
    (isInitialized s = true → isPoweredOn s = true →
      exec (.powerOn ucb) s = .next (responded .invalidState s)) ∧
    (isInitialized s = true → isPoweredOn s = false →
      exec (.powerOn ucb) s = exec (.update ucb) (powerSwitched true s))

/-- `UPDATE` refuses without side effect (R144): `InvalidArgument` when unbound, `InvalidState` when off, without
invoking the callback and without counting. -/
def Obligations.UpdateRefusals : Prop :=
  ∀ (s : State) (ucb : CbArg),
    (isInitialized s = false → exec (.update ucb) s = .next (responded .invalidArgument s)) ∧
    (isInitialized s = true → isPoweredOn s = false → exec (.update ucb) s = .next (responded .invalidState s))

/-- `UNINIT` (R147 to R149): refused when unbound; from `InitializedOn` it powers off first; then both registers of the
old binding take 0, direction first, and the context is the zero context. -/
def Obligations.UninitDefinition : Prop :=
  ∀ s : State,
    (isInitialized s = false → exec .uninit s = .next (responded .invalidArgument s)) ∧
    (isInitialized s = true → isPoweredOn s = false → exec .uninit s = .next (responded .success (cleared s))) ∧
    (isInitialized s = true → isPoweredOn s = true →
      exec .uninit s = .next (responded .success (cleared (powerSwitched false s))))

/-- `INIT` with a count of 0 or above `MAX` answers `InvalidArgument` and changes nothing, whatever the lifecycle state
and whatever the other operands; no other operand is checked: with a count in range, and no callback and no power-on that
could fail, `INIT` succeeds for every binding (R132). -/
def Obligations.InitRefusesABadCount : Prop :=
  ∀ (s : State) (b : Binding) (n : LedCount) (ucb : CbArg),
    (n.toNat = 0 ∨ 64 < n.toNat →
      ∀ icb pwr, exec (.init b n icb pwr ucb) s = .next (responded .invalidArgument s)) ∧
    (1 ≤ n.toNat → n.toNat ≤ 64 →
      ∃ s', exec (.init b n .absent false ucb) s = .next (responded .success s') ∧ s'.ctx.binding = b ∧ s'.ctx.count = n)

/-- `INIT` without power-on (R131, R133 to R135): after the implicit `UNINIT`, if any, it binds the pins and runs the
init callback over every LED; the update callback operand is ignored (D35). -/
def Obligations.InitResult : Prop :=
  ∀ (s : State) (b : Binding) (n : LedCount) (icb ucb : CbArg),
    CountOk n → CallbackSucceeds .init icb (bound b n (beforeBinding s)) n →
      exec (.init b n icb false ucb) s =
        .next (responded .success (walked .init (requests icb n) (bound b n (beforeBinding s))))

/-- `INIT` whose init callback first fails at LED `m` (R135): the walk stops there, the slot keeps what the callback left,
no power-on is attempted, and the error is surfaced. -/
def Obligations.InitCallbackFailure : Prop :=
  ∀ (s : State) (b : Binding) (n : LedCount) (pwr : Bool) (ucb : CbArg) (m : Nat),
    CountOk n → m < n.toNat → FailsFirstAt .init (bound b n (beforeBinding s)) m →
      exec (.init b n .supplied pwr ucb) s =
        .next (responded .invalidArgument (walked .init (m + 1) (bound b n (beforeBinding s))))

/-- `INIT` with power-on whose callbacks succeed (R136, R137, R143): the pins are bound, the init callback fills the
buffer, the power is switched on, the update callback runs with the same operand, one frame is sent, and one update is
counted. -/
def Obligations.InitWithPowerOnResult : Prop :=
  ∀ (s : State) (b : Binding) (n : LedCount) (icb ucb : CbArg),
    let s₁ := walked .init (requests icb n) (bound b n (beforeBinding s))
    let s₂ := powerSwitched true s₁
    CountOk n → (isInitialized s = false → isPoweredOn s = false) → (beforeBinding s).ctx.iteration ≠ BitVec.allOnes 32 →
      CallbackSucceeds .init icb (bound b n (beforeBinding s)) n → CallbackSucceeds .update ucb s₂ n →
      exec (.init b n icb true ucb) s =
        .next (responded .success (counted (transmitted (walked .update (requests ucb n) s₂))))

/-- `INIT` with power-on whose update callback first fails at LED `m` (R136, R217): the rollback powers off, clears both
registers and zeroes the context; the error that occurred first is surfaced; no frame is sent. -/
def Obligations.InitRollsBackAFailedPowerOn : Prop :=
  ∀ (s : State) (b : Binding) (n : LedCount) (icb : CbArg) (m : Nat),
    let s₁ := walked .init (requests icb n) (bound b n (beforeBinding s))
    let s₂ := powerSwitched true s₁
    CountOk n → (isInitialized s = false → isPoweredOn s = false) → m < n.toNat →
      CallbackSucceeds .init icb (bound b n (beforeBinding s)) n → FailsFirstAt .update s₂ m →
      exec (.init b n icb true .supplied) s =
        .next (responded .invalidArgument (cleared (powerSwitched false (walked .update (m + 1) s₂))))

/-- `INIT` on an initialized context is a full `UNINIT`, which succeeds and leaves the zero context, followed by the same
`INIT` on what that leaves (R133). -/
def Obligations.ReinitIsUninitThenInit : Prop :=
  ∀ (s : State) (b : Binding) (n : LedCount) (icb : CbArg) (pwr : Bool) (ucb : CbArg),
    isInitialized s = true → CountOk n →
      ∃ s', opUninit s = .next (.success, s') ∧ s'.ctx = Ctx.zero ∧
        exec (.init b n icb pwr ucb) s = exec (.init b n icb pwr ucb) s'

/-- `UPDATE` when powered on (R143, R145, R146, R171): the callback over every LED in ascending order with the iteration
the update began with, the whole frame, and one count. -/
def Obligations.UpdateResult : Prop :=
  ∀ (s : State) (ucb : CbArg),
    isInitialized s = true → isPoweredOn s = true → CountOk s.ctx.count → s.ctx.iteration ≠ BitVec.allOnes 32 →
      CallbackSucceeds .update ucb s s.ctx.count →
      exec (.update ucb) s =
        .next (responded .success (counted (transmitted (walked .update (requests ucb s.ctx.count) s))))

/-- `UPDATE` whose callback first fails at LED `m` (R145): the slots asked about keep what the callbacks left, nothing is
transmitted, no register is written and no update is counted; also at the largest iteration value. -/
def Obligations.UpdateCallbackFailure : Prop :=
  ∀ (s : State) (m : Nat),
    isInitialized s = true → isPoweredOn s = true → CountOk s.ctx.count → m < s.ctx.count.toNat →
      FailsFirstAt .update s m →
      exec (.update .supplied) s = .next (responded .invalidArgument (walked .update (m + 1) s))

/-- `POWER_ON` whose update callback first fails at LED `m` (R139): no rollback, the power stays on and the line high. -/
def Obligations.PowerOnCallbackFailure : Prop :=
  ∀ (s : State) (m : Nat),
    isInitialized s = true → isPoweredOn s = false → CountOk s.ctx.count → m < s.ctx.count.toNat →
      FailsFirstAt .update (powerSwitched true s) m →
      exec (.powerOn .supplied) s =
        .next (responded .invalidArgument (walked .update (m + 1) (powerSwitched true s)))

/-- `POWER_ON` from `InitializedOff` whose callback, if any, succeeds (R137, R143): power on, settle, the callback over
every LED, the whole frame, one count. -/
def Obligations.PowerOnResult : Prop :=
  ∀ (s : State) (ucb : CbArg),
    isInitialized s = true → isPoweredOn s = false → CountOk s.ctx.count → s.ctx.iteration ≠ BitVec.allOnes 32 →
      CallbackSucceeds .update ucb (powerSwitched true s) s.ctx.count →
      exec (.powerOn ucb) s = .next (responded .success
        (counted (transmitted (walked .update (requests ucb s.ctx.count) (powerSwitched true s)))))

/-- The increment at the largest iteration value has no meaning, and the model refuses the `UPDATE` that would make it,
and the `POWER_ON` (R146, D12); log 9. -/
def Obligations.UpdateAtTheMaximumIsRefused : Prop :=
  ∀ (s : State) (ucb : CbArg),
    isInitialized s = true → CountOk s.ctx.count → s.ctx.iteration = BitVec.allOnes 32 →
      (isPoweredOn s = true → CallbackSucceeds .update ucb s s.ctx.count →
        exec (.update ucb) s = .refused .iterationAtMaximum) ∧
      (isPoweredOn s = false → CallbackSucceeds .update ucb (powerSwitched true s) s.ctx.count →
        exec (.powerOn ucb) s = .refused .iterationAtMaximum)

/-- Every command completes, whatever its operands and whatever the callbacks answer, from every well-formed state whose
iteration is below the maximum (R12, R253: "every command is defined in every state"). -/
def Obligations.EveryCommandCompletes : Prop :=
  ∀ (i : Instr) (s : State), s.Inv → s.ctx.iteration ≠ BitVec.allOnes 32 → ∃ s', exec i s = .next s'

/-! ## The encoder -/

/-- `TRANSMIT` (R171, R172): lifecycle before length, `InvalidArgument` also when initialized but off, and a failing
check changes nothing and appends nothing; else the patterns, the saved flag, the walker at its end, the output register
at the low pattern, the frame on the trace, and every other element as it was. In a well-formed powered state it
succeeds. -/
def Obligations.TransmitDefinition : Prop :=
  ∀ s : State,
    (isInitialized s = false ∨ isPoweredOn s = false → opTransmit s = .next (.invalidArgument, s)) ∧
    (isInitialized s = true → isPoweredOn s = true → s.ctx.count = 0 → opTransmit s = .next (.invalidData, s)) ∧
    (isInitialized s = true → isPoweredOn s = true → CountOk s.ctx.count →
      opTransmit s = .next (.success, transmitted s)) ∧
    (s.Inv → isPoweredOn s = true → ∃ s', opTransmit s = .next (.success, s'))

/-- The bit-timer agrees with `TRANSMIT` (R192): from idle with the preconditions met, `1 + 3 * 24 * COUNT + 1`
transitions lead to exactly the state of the big step, events included; the timer is idle at none of the states in
between; and what the host offers and what the callbacks are moves it at none. -/
def Obligations.BitTimerAgreesWithTransmit : Prop :=
  ∀ s : State, s.phase = .idle → isInitialized s = true → isPoweredOn s = true → CountOk s.ctx.count →
    let steps := 1 + 3 * 24 * s.ctx.count.toNat + 1
    (∃ s', opTransmit s = .next (.success, s') ∧ timerRun steps s = .next s' ∧ s'.phase = .idle) ∧
    ∀ n ≤ steps, ∃ t, timerRun n s = .next t ∧ (0 < n → n < steps → t.phase ≠ .idle) ∧
      ∀ (q : List HostInput) (a : List (InitRequest × CbAnswer)) (u : List (UpdateRequest × CbAnswer)),
        timerRun n { s with inputs := q, icbTable := a, ucbTable := u } =
          .next { t with inputs := q, icbTable := a, ucbTable := u }

/-- The waveform is the frame (R193, R104): a transmission entered with the data line low, projected onto the data pin,
is the encoding of the active LEDs in ascending order followed by the latch. That the projection leaves out an empty
first segment is the model's reading of R193 (log 10). -/
def Obligations.TransmitWaveIsTheFrame : Prop :=
  ∀ s : State, isInitialized s = true → isPoweredOn s = true → CountOk s.ctx.count →
    pinBit (boundPort s) s.ctx.binding.data = false →
    ∃ s' es, opTransmit s = .next (.success, s') ∧ s'.trace = s.trace ++ es ∧
      wave es s.ctx.binding.port s.ctx.binding.data false = encFrame (activeColors s.ctx)

/-- The order of a frame (R63): its bit-pulses are those of `24 * COUNT` bits, and bit `n` is `x[n div 8][7 - n mod 8]`,
where byte `3i`, `3i + 1`, `3i + 2` is the green, red and blue of LED `i`. -/
def Obligations.FrameBitsByPosition : Prop :=
  ∀ c : Ctx, c.count.toNat ≤ Config.maxLeds →
    ∃ bits : List Bool, encFrame (activeColors c) = extendLast [.reset] (bits.flatMap pulse) ∧
      bits.length = 24 * c.count.toNat ∧
      (∀ n < 24 * c.count.toNat, bits[n]? = frameBit c n) ∧
      ∀ i < c.count.toNat, ∃ v, slot c i = some v ∧ ∀ j < 8,
        bits[24 * i + j]? = some (v.g.getLsbD (7 - j)) ∧
        bits[24 * i + 8 + j]? = some (v.r.getLsbD (7 - j)) ∧
        bits[24 * i + 16 + j]? = some (v.b.getLsbD (7 - j))

/-- The counts of one successful `TRANSMIT` (R196, R179): writes, delays, one entry and one exit of the critical
section, all events, rising edges on the data pin, and the total of the delay labels. -/
def Obligations.TransmitEventCounts : Prop :=
  ∀ s : State, isInitialized s = true → isPoweredOn s = true → CountOk s.ctx.count →
    ∃ s' es, opTransmit s = .next (.success, s') ∧ s'.trace = s.trace ++ es ∧
      let n := s.ctx.count.toNat
      let z := zeroBits (activeBytes s.ctx)
      (es.filter (·.isPortWrite)).length = 48 * n + z + 1 ∧
      (es.filter (·.isDelay)).length = 72 * n + 1 ∧
      (es.filter (·.isIrqOff)).length = 1 ∧
      (es.filter (·.isIrqRestore)).length = 1 ∧
      es.length = 120 * n + z + 4 ∧
      (pinBit (boundPort s) s.ctx.binding.data = false →
        highSegments (wave es s.ctx.binding.port s.ctx.binding.data false) = 24 * n) ∧
      traceNs es =
        24 * n * (DelayLabel.phaseA.ns + DelayLabel.phaseB.ns + DelayLabel.phaseC.ns) + DelayLabel.reset.ns

/-- A bit is encoded by the high time alone (R101): both values begin with a high segment and end low; a 0 is high for
`T_A` and low for `T_B + T_C`, a 1 is high for `T_A + T_B` and low for `T_C`; the total does not depend on the value, and
the high time of a 1 is longer. -/
def Obligations.BitValueIsTheHighTime : Prop :=
  pulse false = [⟨true, [.phaseA]⟩, ⟨false, [.phaseB, .phaseC]⟩] ∧
  pulse true = [⟨true, [.phaseA, .phaseB]⟩, ⟨false, [.phaseC]⟩] ∧
  (∀ v : Bool, ∃ h l, pulse v = [⟨true, h⟩, ⟨false, l⟩] ∧
    (h.map (·.ns)).sum + (l.map (·.ns)).sum =
      DelayLabel.phaseA.ns + DelayLabel.phaseB.ns + DelayLabel.phaseC.ns ∧
    (h.map (·.ns)).sum = DelayLabel.phaseA.ns + (if v then DelayLabel.phaseB.ns else 0)) ∧
  0 < DelayLabel.phaseB.ns ∧ DelayLabel.settle.ns = 100000 ∧ DelayLabel.reset.ns = 50000

/-- The trace inside the critical section (R194, R174): only the two patterns written to the bound output register, and
the phase delays; the latch delay once, as the last event before the exit. -/
def Obligations.CriticalSectionShape : Prop :=
  ∀ s : State, isInitialized s = true → isPoweredOn s = true → CountOk s.ctx.count →
    ∃ s' mid, opTransmit s = .next (.success, s') ∧
      s'.trace = s.trace ++ [.irqOff s.ie] ++ mid ++ [.delay .reset, .irqRestore s.ie] ∧
      ∀ e ∈ mid, e = .wrPort s.ctx.binding.port s'.patHi ∨ e = .wrPort s.ctx.binding.port s'.patLo ∨
        e = .delay .phaseA ∨ e = .delay .phaseB ∨ e = .delay .phaseC

/-- The pattern snapshot (R173): one content of the output register gives both patterns, which differ on the data pin
only; each value a transmission writes agrees with that content on every other pin, no direction register is written, and
the data line ends low (R184, R197). -/
def Obligations.TransmitKeepsOtherPins : Prop :=
  ∀ s : State, isInitialized s = true → isPoweredOn s = true → CountOk s.ctx.count →
    ∃ s' es, opTransmit s = .next (.success, s') ∧ s'.trace = s.trace ++ es ∧
      s'.patHi = boundPort s ||| (1#8 <<< s.ctx.binding.data.toNat) ∧
      s'.patLo = boundPort s &&& ~~~(1#8 <<< s.ctx.binding.data.toNat) ∧
      pinBit s'.patHi s.ctx.binding.data = true ∧ pinBit s'.patLo s.ctx.binding.data = false ∧
      (∀ sel v, .wrPort sel v ∈ es → sel = s.ctx.binding.port ∧
        ∀ p, p ≠ s.ctx.binding.data → pinBit v p = pinBit (boundPort s) p) ∧
      (∀ sel v, .wrDdr sel v ∉ es) ∧
      boundPort s' = s'.patLo

/-! ## Frames -/

/-- Interrupts end in the state they started, in every command and on every path (R185, R223). -/
def Obligations.InterruptsEndAsTheyStarted : Prop :=
  ∀ (i : Instr) (s s' : State), exec i s = .next s' → s'.ie = s.ie

/-- No command writes a GPIO register other than those its binding selects (R30, R35). -/
def Obligations.OnlyBoundRegistersAreWritten : Prop :=
  ∀ (i : Instr) (s s' : State) (sel : Sel), exec i s = .next s' → ¬ mayWrite i s sel →
    gpioRead s' sel = gpioRead s sel

/-- What the power commands and `UPDATE` leave of the context (R28 b, R23, R142, R29): the binding, the count and
`STATUS.I` stay; `UPDATE` keeps `STATUS.P`; `POWER_OFF` keeps the iteration; every byte of the buffer beyond the active
ones stays, and every byte stays when no callback is supplied. -/
def Obligations.ContextFrame : Prop :=
  ∀ (s s' : State),
    (∀ i, (i = .powerOff ∨ ∃ ucb, i = .powerOn ucb ∨ i = .update ucb) → exec i s = .next s' →
      s'.ctx.binding = s.ctx.binding ∧ s'.ctx.count = s.ctx.count ∧ isInitialized s' = isInitialized s ∧
      ∀ k, byteCount s.ctx ≤ k → bufferByte s'.ctx k = bufferByte s.ctx k) ∧
    (∀ i, i = .powerOff ∨ i = .powerOn .absent ∨ i = .update .absent → exec i s = .next s' →
      ∀ k, bufferByte s'.ctx k = bufferByte s.ctx k) ∧
    (∀ ucb, exec (.update ucb) s = .next s' → isPoweredOn s' = isPoweredOn s) ∧
    (exec .powerOff s = .next s' → s'.ctx.iteration = s.ctx.iteration)

/-- What every command leaves outside the context (R35, R36, and the model's own fields): the host's remaining inputs, the
attached callbacks; an idle timer stays idle. A command that transmits nothing and asks nothing leaves every transient
register. -/
def Obligations.EnvironmentFrame : Prop :=
  (∀ (i : Instr) (s s' : State), exec i s = .next s' →
    s'.inputs = s.inputs ∧ s'.icbTable = s.icbTable ∧ s'.ucbTable = s.ucbTable ∧
    (s.phase = .idle → s'.phase = .idle)) ∧
  (∀ (s s' : State) (i : Instr),
    (i = .powerOff ∨ i = .uninit ∨ ∃ b n ucb, i = .init b n .absent false ucb) → exec i s = .next s' →
    s'.patHi = s.patHi ∧ s'.patLo = s.patLo ∧ s'.savedIe = s.savedIe ∧ s'.k = s.k ∧ s'.j = s.j ∧ s'.i = s.i ∧
    s'.phase = s.phase)

/-- A command appends its events and then its response, one response and no other (R12, R130); nothing already on the
trace changes. -/
def Obligations.EachCommandRespondsOnceLast : Prop :=
  ∀ (i : Instr) (s s' : State), exec i s = .next s' → ∃ es r, Answered i s s' es r

/-- A command refused with `InvalidState` has no side effect (R218, R229): only the response. -/
def Obligations.InvalidStateHasNoSideEffect : Prop :=
  ∀ (i : Instr) (s s' : State) (es : List Event), s.Inv → Answered i s s' es .invalidState →
    s' = responded .invalidState s

/-! ## Invariants and whole-machine rules -/

/-- Every step keeps the invariants of the context (R28, R151), whatever the host offers. -/
def Obligations.StepKeepsTheInvariants : Prop :=
  ∀ s s' : State, s.Inv → step s = .next s' → s'.Inv

/-- Every step keeps the lines at rest (R152): between commands the data line is driven low and the power-enable line
follows `STATUS.P`. -/
def Obligations.StepKeepsLinesAtRest : Prop :=
  ∀ s s' : State, s.Inv → s.LinesAtRest → step s = .next s' → s'.LinesAtRest

/-- After an `UNINIT` that found an initialized context, no pin of the bank it was bound to is driven (R149, R152). -/
def Obligations.UninitLeavesTheBankUndriven : Prop :=
  ∀ s : State, isInitialized s = true →
    ∃ s', exec .uninit s = .next s' ∧
      ∀ p, levelOf (gpioRead s' s.ctx.binding.ddr) (gpioRead s' s.ctx.binding.port) p = .z

/-- From a well-formed state no step faults: no index leaves the buffer (R67); and the only refusal is that of the
increment at the largest iteration value (R146). -/
def Obligations.StepNeverFaults : Prop :=
  ∀ s : State, s.Inv →
    (∀ r, step s ≠ .fault r) ∧
    (∀ r, step s = .refused r → r = .iterationAtMaximum ∧ s.ctx.iteration = BitVec.allOnes 32)

/-- The lifecycle follows the transition table (R150, R214, R228): the result and the next lifecycle state of every
command are among those the table gives. -/
def Obligations.LifecycleFollowsTheTable : Prop :=
  ∀ (i : Instr) (s s' : State), s.Inv → exec i s = .next s' →
    ∃ es r, Answered i s s' es r ∧ (r, lifecycle s') ∈ transitions i (lifecycle s)

/-- No host command ever answers `InvalidData` (R212), and `INIT` and `UNINIT` never answer `InvalidState` (R213). -/
def Obligations.UnreachableErrorCodes : Prop :=
  ∀ (i : Instr) (s s' : State) (es : List Event) (r : Result), s.Inv → Answered i s s' es r →
    r ≠ .invalidData ∧
    ((i = .uninit ∨ ∃ b n icb pwr ucb, i = .init b n icb pwr ucb) → r ≠ .invalidState)

/-- `ITERATION` counts successful updates (R26, R146): a successful `UPDATE` or `POWER_ON` adds exactly one, a failing one
adds nothing, `POWER_OFF` keeps it, a successful `UNINIT` zeroes it, and a successful `INIT` leaves it at 0, or at 1 if it
powered on. -/
def Obligations.IterationCountsSuccessfulUpdates : Prop :=
  ∀ (s s' : State) (es : List Event) (r : Result), s.Inv →
    (∀ i, (∃ ucb, i = .update ucb ∨ i = .powerOn ucb) → Answered i s s' es r →
      s'.ctx.iteration.toNat = s.ctx.iteration.toNat + (if r = .success then 1 else 0)) ∧
    (Answered .powerOff s s' es r → s'.ctx.iteration = s.ctx.iteration) ∧
    (Answered .uninit s s' es .success → s'.ctx.iteration = 0) ∧
    (∀ b n icb pwr ucb, Answered (.init b n icb pwr ucb) s s' es .success →
      s'.ctx.iteration = (if pwr then 1 else 0))

/-- "`init` then immediately `uninit`" (R40): whatever `INIT`'s operands and callbacks, as long as it leaves the context
initialized, the context is then the zero context, the two registers of the binding are 0, and every other register and
`IE` are as they were. -/
def Obligations.InitThenUninitRestores : Prop :=
  ∀ (s s₁ : State) (b : Binding) (n : LedCount) (icb : CbArg) (pwr : Bool) (ucb : CbArg),
    s.Inv → isInitialized s = false → exec (.init b n icb pwr ucb) s = .next s₁ → isInitialized s₁ = true →
    ∃ s₂, exec .uninit s₁ = .next s₂ ∧ s₂.ctx = Ctx.zero ∧ s₂.ie = s.ie ∧
      ∀ sel, gpioRead s₂ sel = if sel = b.ddr ∨ sel = b.port then 0 else gpioRead s sel

/-- A power cycle keeps the context (R142): `POWER_OFF` and then `POWER_ON` without a callback resends the same colours
and continues the count. -/
def Obligations.PowerCycleResendsTheColours : Prop :=
  ∀ s : State, s.Inv → isPoweredOn s = true → s.ctx.iteration ≠ BitVec.allOnes 32 →
    let b := s.ctx.binding
    let v := withPin (boundPort s) b.pwr
    ∃ s₁ s₂, exec .powerOff s = .next s₁ ∧ exec (.powerOn .absent) s₁ = .next s₂ ∧
      s₂.ctx = { s.ctx with iteration := s.ctx.iteration + 1 } ∧
      s₂.trace = s₁.trace ++ [.wrPort b.port v, .delay .settle]
        ++ txEvents b.port (withPin v b.data) (withoutPin v b.data) (activeBytes s.ctx) s.ie ++ [.resp .success]

/-- `STATUS` (R22): bit 0 is `I`, bit 1 is `P`, bits 7:2 are zero; in a well-formed state it is `0x00`, `0x01` or `0x03`,
and which one is the lifecycle state (R27). -/
def Obligations.StatusRegister : Prop :=
  (∀ st : Status, st.word.getLsbD 0 = st.initialized ∧ st.word.getLsbD 1 = st.poweredOn ∧
    ∀ k, 2 ≤ k → st.word.getLsbD k = false) ∧
  (∀ s : State, s.Inv →
    s.ctx.status.word = (match lifecycle s with
      | .unbound => 0x00#8
      | .initializedOff => 0x01#8
      | .initializedOn => 0x03#8))

/-! ## What no rule reads -/

/-- The trace is read by no rule (R17): whatever trace a command starts on, it does the same and appends the same. -/
def Obligations.TraceIsReadByNoRule : Prop :=
  ∀ (i : Instr) (s s' : State) (t : List Event), exec i s = .next s' →
    ∃ es, s'.trace = s.trace ++ es ∧ exec i { s with trace := t } = .next { s' with trace := t ++ es }

/-- The transient registers are written before they are read in every command (R252): no behaviour depends on what they
hold when it begins. -/
def Obligations.TransientsAreReadByNoCommand : Prop :=
  ∀ (i : Instr) (s t s' : State), SameButTransients s t → exec i s = .next s' →
    ∃ t', exec i t = .next t' ∧ SameButTransients s' t'

/-- No rule depends on `IE` other than through the value a transmission saves and restores (R32): with the other value a
command leaves the same context and registers and the same events, but for the value in the two critical-section
events. -/
def Obligations.InterruptFlagIsOnlySavedAndRestored : Prop :=
  ∀ (i : Instr) (s s' : State) (v : Bool), exec i s = .next s' →
    ∃ t', exec i { s with ie := v } = .next t' ∧ t'.ctx = s'.ctx ∧ t'.gpio = s'.gpio ∧ t'.ie = v ∧
      t'.trace.filter (fun e => !e.isIrqOff && !e.isIrqRestore) =
        s'.trace.filter (fun e => !e.isIrqOff && !e.isIrqRestore)

/-- `UPDATE` and `POWER_ON` read no slot at or beyond `COUNT` (R29, R177): with anything in those slots the command, if it
completes, does the same to the trace and the registers and leaves the same active colours. -/
def Obligations.UpdateAndPowerOnReadNoUnusedSlot : Prop :=
  ∀ (i : Instr) (s s' : State) (cs : Vector Color Config.maxLeds),
    (∃ ucb, i = .update ucb ∨ i = .powerOn ucb) → s.ctx.count.toNat ≤ Config.maxLeds →
    (∀ j, j < s.ctx.count.toNat → cs[j]? = s.ctx.colors[j]?) → exec i s = .next s' →
    ∃ t', exec i { s with ctx := { s.ctx with colors := cs } } = .next t' ∧ t'.trace = s'.trace ∧ t'.gpio = s'.gpio ∧
      activeColors t'.ctx = activeColors s'.ctx
end

