-- ==== Sys2Proof/Laws/Operands.lean ====
section
/-! SUPPORT. Pins, registers and the colour buffer: reads after writes, and the buffer as bytes. -/

namespace Sys2Proof.Machine

/-! Pin masks: setting or clearing one pin of a register, read back at every pin (R13, R134, R173). -/

theorem pinBit_withPin (v : PortWord) (p q : Pin) : pinBit (withPin v p) q = (pinBit v q || decide (q = p)) := by
  revert q p
  unfold pinBit withPin bitMask
  intro p q
  have hp := p.isLt
  have hq := q.isLt
  have h : q = p ↔ q.toNat = p.toNat := ⟨fun h => h ▸ rfl, BitVec.eq_of_toNat_eq⟩
  simp only [BitVec.getLsbD_or, BitVec.getLsbD_shiftLeft, BitVec.getLsbD_one, h]
  congr 1
  rw [Bool.eq_iff_iff]
  simp
  omega

theorem pinBit_withoutPin (v : PortWord) (p q : Pin) :
    pinBit (withoutPin v p) q = (pinBit v q && !decide (q = p)) := by
  unfold pinBit withoutPin bitMask
  have hp := p.isLt
  have hq := q.isLt
  have h : q = p ↔ q.toNat = p.toNat := ⟨fun h => h ▸ rfl, BitVec.eq_of_toNat_eq⟩
  simp only [BitVec.getLsbD_and, BitVec.getLsbD_not, BitVec.getLsbD_shiftLeft, BitVec.getLsbD_one, h]
  congr 1
  rw [Bool.eq_iff_iff]
  simp
  omega

@[simp] theorem pinBit_zero (p : Pin) : pinBit 0#8 p = false := by simp [pinBit]

/-- Writing the low pattern over the low pattern changes nothing: clearing a pin twice is clearing it once. -/
@[simp] theorem withoutPin_withoutPin (v : PortWord) (p : Pin) :
    withoutPin (withoutPin v p) p = withoutPin v p := by
  simp [withoutPin, BitVec.and_assoc]

/-! The colour buffer: slots and bytes (R61). -/

theorem slot_isSome (c : Ctx) (i : Nat) (h : i < Config.maxLeds) : slot c i = some c.colors[i] := by
  simp [slot, h]

theorem slot_none (c : Ctx) (i : Nat) (h : Config.maxLeds ≤ i) : slot c i = none := by
  simp [slot, h]

theorem slot_setSlot (c : Ctx) (i j : Nat) (v : Color) :
    slot (setSlot i v c) j = if i = j then (if i < Config.maxLeds then some v else none) else slot c j := by
  simp [slot, setSlot, Vector.getElem?_setIfInBounds]

@[simp] theorem setSlot_status (c : Ctx) (i : Nat) (v : Color) : (setSlot i v c).status = c.status := rfl
@[simp] theorem setSlot_binding (c : Ctx) (i : Nat) (v : Color) : (setSlot i v c).binding = c.binding := rfl
@[simp] theorem setSlot_count (c : Ctx) (i : Nat) (v : Color) : (setSlot i v c).count = c.count := rfl
@[simp] theorem setSlot_iteration (c : Ctx) (i : Nat) (v : Color) : (setSlot i v c).iteration = c.iteration := rfl

/-- Every active byte exists while the count is in range (R67). -/
theorem bufferByte_isSome (c : Ctx) (k : Nat) (hk : k < 3 * Config.maxLeds) :
    ∃ v, bufferByte c k = some v := by
  have h : k / 3 < Config.maxLeds := by omega
  exact ⟨_, by simp [bufferByte, slot_isSome c _ h]; rfl⟩

theorem colorBytes_length (v : Color) : (colorBytes v).length = 3 := rfl

theorem flatMap_colorBytes_getElem? (cs : List Color) (k : Nat) :
    (cs.flatMap colorBytes)[k]? = (cs[k / 3]?).map (channel · (k % 3)) := by
  induction cs generalizing k with
  | nil => simp
  | cons c cs ih =>
    rw [List.flatMap_cons]
    by_cases h : k < 3
    · rw [List.getElem?_append_left (by simpa [colorBytes] using h)]
      have : k = 0 ∨ k = 1 ∨ k = 2 := by omega
      rcases this with rfl | rfl | rfl <;> rfl
    · rw [List.getElem?_append_right (by simp [colorBytes]; omega), colorBytes_length, ih]
      obtain ⟨m, rfl⟩ : ∃ m, k = m + 3 := ⟨k - 3, by omega⟩
      simp [Nat.add_div_right]

/-- The active bytes are the bytes of the buffer, by position (R61, R177). -/
theorem activeBytes_getElem? (c : Ctx) (k : Nat) (hk : k < byteCount c) :
    (activeBytes c)[k]? = bufferByte c k := by
  have h : k / 3 < c.count.toNat := by unfold byteCount at hk; omega
  rw [activeBytes, flatMap_colorBytes_getElem?, activeColors, List.getElem?_take_of_lt h, bufferByte, slot,
    Vector.getElem?_toList]

theorem activeColors_length (c : Ctx) (h : c.count.toNat ≤ Config.maxLeds) :
    (activeColors c).length = c.count.toNat := by
  simp [activeColors]; omega

theorem activeBytes_length (c : Ctx) (h : c.count.toNat ≤ Config.maxLeds) :
    (activeBytes c).length = byteCount c := by
  have : ∀ cs : List Color, (cs.flatMap colorBytes).length = 3 * cs.length := by
    intro cs
    induction cs with
    | nil => rfl
    | cons c cs ih => simp [List.flatMap_cons, ih, colorBytes]; omega
  rw [activeBytes, this, activeColors_length c h, byteCount]

end Sys2Proof.Machine
end

