-- ==== Sys2Proof/Laws/State.lean ====
section
/-! SUPPORT. What each named update does to each field of the state, true by `rfl`, so that no proof unfolds one. -/

namespace Sys2Proof.Machine

section Emit
variable (e : Event) (s : State)

@[simp] theorem emit_ctx : (emit e s).ctx = s.ctx := rfl
@[simp] theorem emit_gpio : (emit e s).gpio = s.gpio := rfl
@[simp] theorem emit_ie : (emit e s).ie = s.ie := rfl
@[simp] theorem emit_patHi : (emit e s).patHi = s.patHi := rfl
@[simp] theorem emit_patLo : (emit e s).patLo = s.patLo := rfl
@[simp] theorem emit_savedIe : (emit e s).savedIe = s.savedIe := rfl
@[simp] theorem emit_k : (emit e s).k = s.k := rfl
@[simp] theorem emit_j : (emit e s).j = s.j := rfl
@[simp] theorem emit_phase : (emit e s).phase = s.phase := rfl
@[simp] theorem emit_i : (emit e s).i = s.i := rfl
@[simp] theorem emit_trace : (emit e s).trace = s.trace ++ [e] := rfl
@[simp] theorem emit_inputs : (emit e s).inputs = s.inputs := rfl
@[simp] theorem emit_icbTable : (emit e s).icbTable = s.icbTable := rfl
@[simp] theorem emit_ucbTable : (emit e s).ucbTable = s.ucbTable := rfl

end Emit

section Delay
variable (d : DelayLabel) (s : State)

theorem delay_eq : delay d s = emit (.delay d) s := rfl
@[simp] theorem delay_ctx : (delay d s).ctx = s.ctx := rfl
@[simp] theorem delay_gpio : (delay d s).gpio = s.gpio := rfl
@[simp] theorem delay_ie : (delay d s).ie = s.ie := rfl
@[simp] theorem delay_patHi : (delay d s).patHi = s.patHi := rfl
@[simp] theorem delay_patLo : (delay d s).patLo = s.patLo := rfl
@[simp] theorem delay_savedIe : (delay d s).savedIe = s.savedIe := rfl
@[simp] theorem delay_k : (delay d s).k = s.k := rfl
@[simp] theorem delay_j : (delay d s).j = s.j := rfl
@[simp] theorem delay_phase : (delay d s).phase = s.phase := rfl
@[simp] theorem delay_i : (delay d s).i = s.i := rfl
@[simp] theorem delay_trace : (delay d s).trace = s.trace ++ [.delay d] := rfl
@[simp] theorem delay_inputs : (delay d s).inputs = s.inputs := rfl
@[simp] theorem delay_icbTable : (delay d s).icbTable = s.icbTable := rfl
@[simp] theorem delay_ucbTable : (delay d s).ucbTable = s.ucbTable := rfl

end Delay

section Gpio
variable (sel : Sel) (v : PortWord) (s : State)

@[simp] theorem writeDdr_ctx : (writeDdr sel v s).ctx = s.ctx := rfl
@[simp] theorem writeDdr_gpio : (writeDdr sel v s).gpio = s.gpio.set sel.toNat v sel.isLt := rfl
@[simp] theorem writeDdr_ie : (writeDdr sel v s).ie = s.ie := rfl
@[simp] theorem writeDdr_patHi : (writeDdr sel v s).patHi = s.patHi := rfl
@[simp] theorem writeDdr_patLo : (writeDdr sel v s).patLo = s.patLo := rfl
@[simp] theorem writeDdr_savedIe : (writeDdr sel v s).savedIe = s.savedIe := rfl
@[simp] theorem writeDdr_k : (writeDdr sel v s).k = s.k := rfl
@[simp] theorem writeDdr_j : (writeDdr sel v s).j = s.j := rfl
@[simp] theorem writeDdr_phase : (writeDdr sel v s).phase = s.phase := rfl
@[simp] theorem writeDdr_i : (writeDdr sel v s).i = s.i := rfl
@[simp] theorem writeDdr_trace : (writeDdr sel v s).trace = s.trace ++ [.wrDdr sel v] := rfl
@[simp] theorem writeDdr_inputs : (writeDdr sel v s).inputs = s.inputs := rfl
@[simp] theorem writeDdr_icbTable : (writeDdr sel v s).icbTable = s.icbTable := rfl
@[simp] theorem writeDdr_ucbTable : (writeDdr sel v s).ucbTable = s.ucbTable := rfl

@[simp] theorem writePort_ctx : (writePort sel v s).ctx = s.ctx := rfl
@[simp] theorem writePort_gpio : (writePort sel v s).gpio = s.gpio.set sel.toNat v sel.isLt := rfl
@[simp] theorem writePort_ie : (writePort sel v s).ie = s.ie := rfl
@[simp] theorem writePort_patHi : (writePort sel v s).patHi = s.patHi := rfl
@[simp] theorem writePort_patLo : (writePort sel v s).patLo = s.patLo := rfl
@[simp] theorem writePort_savedIe : (writePort sel v s).savedIe = s.savedIe := rfl
@[simp] theorem writePort_k : (writePort sel v s).k = s.k := rfl
@[simp] theorem writePort_j : (writePort sel v s).j = s.j := rfl
@[simp] theorem writePort_phase : (writePort sel v s).phase = s.phase := rfl
@[simp] theorem writePort_i : (writePort sel v s).i = s.i := rfl
@[simp] theorem writePort_trace : (writePort sel v s).trace = s.trace ++ [.wrPort sel v] := rfl
@[simp] theorem writePort_inputs : (writePort sel v s).inputs = s.inputs := rfl
@[simp] theorem writePort_icbTable : (writePort sel v s).icbTable = s.icbTable := rfl
@[simp] theorem writePort_ucbTable : (writePort sel v s).ucbTable = s.ucbTable := rfl

end Gpio

section Flags
variable (v : Bool) (s : State)

theorem isInitialized_eq : isInitialized s = s.ctx.status.initialized := rfl
theorem isPoweredOn_eq : isPoweredOn s = s.ctx.status.poweredOn := rfl
@[simp] theorem setInitialized_isInitialized : isInitialized (setInitialized v s) = v := rfl
@[simp] theorem setInitialized_isPoweredOn : isPoweredOn (setInitialized v s) = isPoweredOn s := rfl
@[simp] theorem setInitialized_gpio : (setInitialized v s).gpio = s.gpio := rfl
@[simp] theorem setInitialized_trace : (setInitialized v s).trace = s.trace := rfl
@[simp] theorem setPoweredOn_isPoweredOn : isPoweredOn (setPoweredOn v s) = v := rfl
@[simp] theorem setPoweredOn_isInitialized : isInitialized (setPoweredOn v s) = isInitialized s := rfl
@[simp] theorem setPoweredOn_gpio : (setPoweredOn v s).gpio = s.gpio := rfl
@[simp] theorem setPoweredOn_trace : (setPoweredOn v s).trace = s.trace := rfl
@[simp] theorem setPoweredOn_count : (setPoweredOn v s).ctx.count = s.ctx.count := rfl
@[simp] theorem setPoweredOn_binding : (setPoweredOn v s).ctx.binding = s.ctx.binding := rfl
@[simp] theorem setPoweredOn_colors : (setPoweredOn v s).ctx.colors = s.ctx.colors := rfl
@[simp] theorem setPoweredOn_iteration : (setPoweredOn v s).ctx.iteration = s.ctx.iteration := rfl

end Flags

/-! The closed forms of the straight-line pieces. -/

theorem switchPower_eq (on : Bool) (s : State) : switchPower on s = powerSwitched on s := by
  simp [switchPower, powerSwitched, delay, emit, setPoweredOn, writePort, gpioSet, withPin, withoutPin]

theorem clearContext_eq (s : State) : clearContext s = cleared s := by
  simp [clearContext, cleared, emit, writePort, writeDdr, gpioSet]

theorem bindPins_eq (b : Binding) (n : LedCount) (s : State) : bindPins b n s = bound b n s := by
  simp [bindPins, bound, emit, writePort, writeDdr, gpioSet, setInitialized, withPin, gpioRead]

theorem emit_resp_eq (r : Result) (s : State) : emit (.resp r) s = responded r s := rfl

end Sys2Proof.Machine
end

