-- ==== Sys2Proof/Laws/Ops.lean ====
section
/-! SUPPORT. One lemma per shared operation: sequencing, the response, GPIO reads, the callback exchange and its walk. -/

namespace Sys2Proof.Machine

/-! Sequencing. -/

section Sequencing
variable {α β : Type}

@[simp] theorem andThen_next (a : α) (f : α → Host.Outcome β Fault Refusal) : andThen (.next a) f = f a := rfl
@[simp] theorem andThen_fault (r : Fault) (f : α → Host.Outcome β Fault Refusal) :
    andThen (.fault r) f = .fault r := rfl
@[simp] theorem andThen_refused (r : Refusal) (f : α → Host.Outcome β Fault Refusal) :
    andThen (.refused r) f = .refused r := rfl

/-- What a sequence that goes on to a next state was made of. -/
theorem andThen_eq_next {o : Host.Outcome α Fault Refusal} {f : α → Host.Outcome β Fault Refusal} {b : β}
    (h : andThen o f = .next b) : ∃ a, o = .next a ∧ f a = .next b := by
  cases o with
  | next a => exact ⟨a, rfl, h⟩
  | fault r => cases h
  | refused r => cases h

theorem andThen_assoc {γ : Type} (o : Host.Outcome α Fault Refusal) (f : α → Host.Outcome β Fault Refusal)
    (g : β → Host.Outcome γ Fault Refusal) : andThen (andThen o f) g = andThen o fun a => andThen (f a) g := by
  cases o <;> rfl

@[simp] theorem forEach_nil (body : α → State → Host.Outcome State Fault Refusal) (s : State) :
    forEach body [] s = .next s := rfl

@[simp] theorem forEach_cons (body : α → State → Host.Outcome State Fault Refusal) (a : α) (as : List α) (s : State) :
    forEach body (a :: as) s = andThen (body a s) (forEach body as) := rfl

theorem forEach_append (body : α → State → Host.Outcome State Fault Refusal) (as bs : List α) (s : State) :
    forEach body (as ++ bs) s = andThen (forEach body as s) (forEach body bs) := by
  induction as generalizing s with
  | nil => rfl
  | cons a as ih =>
    rw [List.cons_append, forEach_cons, forEach_cons, andThen_assoc]
    congr 1
    funext s'
    exact ih s'

end Sequencing

@[simp] theorem onSuccess_ret_success (s : State) (f : State → OpOutcome) : onSuccess (ret .success s) f = f s := rfl

@[simp] theorem onSuccess_ret (r : Result) (s : State) (f : State → OpOutcome) (h : r ≠ .success) :
    onSuccess (ret r s) f = ret r s := by
  simp [onSuccess, ret, h]

/-- The two ways a "run it, and go on if it succeeded" ends in a next state: the first failure, or the rest (R217). -/
theorem onSuccess_eq_next {o : OpOutcome} {f : State → OpOutcome} {r : Result} {s' : State}
    (h : onSuccess o f = .next (r, s')) :
    (∃ s₁, o = .next (.success, s₁) ∧ f s₁ = .next (r, s')) ∨ (o = .next (r, s') ∧ r ≠ .success) := by
  obtain ⟨⟨r₁, s₁⟩, ho, hf⟩ := andThen_eq_next h
  by_cases hr : r₁ = .success
  · subst hr; exact .inl ⟨s₁, ho, hf⟩
  · simp only [hr, if_false] at hf
    cases hf
    exact .inr ⟨ho, hr⟩

@[simp] theorem respond_ret (r : Result) (s : State) : respond (ret r s) = .next (responded r s) := rfl

/-- A command that answers a next state ended its operation with some result, and the response is the last event
(R130). -/
theorem respond_eq_next {o : OpOutcome} {t : State} (h : respond o = .next t) :
    ∃ r s', o = .next (r, s') ∧ t = responded r s' := by
  obtain ⟨⟨r, s'⟩, ho, ht⟩ := andThen_eq_next h
  cases ht
  exact ⟨r, s', ho, rfl⟩

/-! GPIO reads after writes (R70). -/

theorem gpioRead_eq (s : State) (sel : Sel) : gpioRead s sel = s.gpio[sel.toNat]'sel.isLt := rfl

theorem gpioRead_set (s : State) (g : Vector PortWord Config.numRegs) (sel r : Sel) (v : PortWord)
    (h : s.gpio = g.set sel.toNat v sel.isLt) :
    gpioRead s r = if r = sel then v else g[r.toNat]'r.isLt := by
  have hiff : sel.toNat = r.toNat ↔ r = sel := ⟨fun h => (BitVec.eq_of_toNat_eq h).symm, fun h => h ▸ rfl⟩
  simp only [gpioRead, h, Vector.getElem_set, hiff]

/-! The callback exchange and its walk (R135, R145). -/

/-- Everything one exchange does: `I`, the slot, the event; nothing else. -/
theorem exchange_eq (port : CbPort) (i : Nat) (cin : Color) (s : State) :
    exchange port i cin s =
      ({ s with
          ctx := setSlot i (answerAt port s i cin).cout s.ctx
          i := BitVec.ofNat 8 i
          trace := s.trace ++ [exchangeEvent port s (BitVec.ofNat 8 i) cin (answerAt port s i cin)] },
        (answerAt port s i cin).res) := rfl

/-- The answers of a port depend on the tables and on `ITERATION` alone (R16). -/
theorem answerAt_congr (port : CbPort) {s t : State} (hi : t.icbTable = s.icbTable) (hu : t.ucbTable = s.ucbTable)
    (hit : t.ctx.iteration = s.ctx.iteration) : answerAt port t = answerAt port s := by
  funext i cin
  cases port <;> simp [answerAt, answer, answerInit, answerUpdate, hi, hu, hit]

theorem exchangeEvent_congr (port : CbPort) {s t : State} (hit : t.ctx.iteration = s.ctx.iteration) :
    exchangeEvent port t = exchangeEvent port s := by
  funext i cin a
  cases port <;> simp [exchangeEvent, hit]

@[simp] theorem walked_ctx_status (port : CbPort) (m : Nat) (s : State) :
    (walked port m s).ctx.status = s.ctx.status := rfl
@[simp] theorem walked_ctx_binding (port : CbPort) (m : Nat) (s : State) :
    (walked port m s).ctx.binding = s.ctx.binding := rfl
@[simp] theorem walked_ctx_count (port : CbPort) (m : Nat) (s : State) :
    (walked port m s).ctx.count = s.ctx.count := rfl
@[simp] theorem walked_ctx_iteration (port : CbPort) (m : Nat) (s : State) :
    (walked port m s).ctx.iteration = s.ctx.iteration := rfl
@[simp] theorem walked_gpio (port : CbPort) (m : Nat) (s : State) : (walked port m s).gpio = s.gpio := rfl
@[simp] theorem walked_ie (port : CbPort) (m : Nat) (s : State) : (walked port m s).ie = s.ie := rfl
@[simp] theorem walked_phase (port : CbPort) (m : Nat) (s : State) : (walked port m s).phase = s.phase := rfl
@[simp] theorem walked_inputs (port : CbPort) (m : Nat) (s : State) : (walked port m s).inputs = s.inputs := rfl
@[simp] theorem walked_icbTable (port : CbPort) (m : Nat) (s : State) :
    (walked port m s).icbTable = s.icbTable := rfl
@[simp] theorem walked_ucbTable (port : CbPort) (m : Nat) (s : State) :
    (walked port m s).ucbTable = s.ucbTable := rfl
@[simp] theorem walked_isInitialized (port : CbPort) (m : Nat) (s : State) :
    isInitialized (walked port m s) = isInitialized s := rfl
@[simp] theorem walked_isPoweredOn (port : CbPort) (m : Nat) (s : State) :
    isPoweredOn (walked port m s) = isPoweredOn s := rfl

/-- No request, no change. -/
@[simp] theorem walked_zero (port : CbPort) (s : State) : walked port 0 s = s := by
  have h : walkedColors port s 0 = s.ctx.colors := by
    ext i hi; all_goals simp [walkedColors]
  simp [walked, walkEvents, h]

theorem slot_walked (port : CbPort) (m : Nat) (s : State) (i : Nat) :
    slot (walked port m s).ctx i =
      (slot s.ctx i).map fun cin => if i < m then (answerAt port s i cin).cout else cin := by
  simp [slot, walked, walkedColors]

/-- A walk that has not reached slot `i` leaves it. -/
theorem slot_walked_of_le (port : CbPort) {m i : Nat} (s : State) (h : m ≤ i) :
    slot (walked port m s).ctx i = slot s.ctx i := by
  rw [slot_walked]
  simp [Nat.not_lt.mpr h]

theorem answerAt_walked (port : CbPort) (m : Nat) (s : State) : answerAt port (walked port m s) = answerAt port s :=
  answerAt_congr port rfl rfl rfl

/-- The request after `m` requests makes it `m + 1`. -/
theorem exchange_walked (port : CbPort) (m : Nat) (cin : Color) (s : State) (h : slot s.ctx m = some cin) :
    exchange port m cin (walked port m s) = (walked port (m + 1) s, (answerAt port s m cin).res) := by
  have hm : m < Config.maxLeds := by
    by_cases hm : m < Config.maxLeds
    · exact hm
    · rw [slot_none _ _ (by omega)] at h; cases h
  have hcin : s.ctx.colors[m] = cin := by
    rw [slot_isSome _ _ hm] at h; exact Option.some.inj h
  have hcolors : (walkedColors port s m).setIfInBounds m (answerAt port s m cin).cout = walkedColors port s (m + 1) := by
    apply Vector.ext
    intro i hi
    by_cases him : m = i
    · subst him
      simp [walkedColors, hcin]
    · have hne : i < m ↔ i < m + 1 := by omega
      simp [walkedColors, him, hne]
  have htrace : walkEvents port s (m + 1) =
      walkEvents port s m ++ [exchangeEvent port s (BitVec.ofNat 8 m) cin (answerAt port s m cin)] := by
    have hget : s.ctx.colors.toList[m]? = some cin := by rw [Vector.getElem?_toList]; exact h
    have hlen : min m Config.maxLeds = m := by omega
    simp [walkEvents, List.take_add_one, hget, List.mapIdx_append, hlen]
  rw [exchange_eq, answerAt_walked, exchangeEvent_congr port (s := s) (t := walked port m s) rfl]
  simp [walked, setSlot, hcolors, htrace]

/-- The walk, once `m` requests have succeeded, with the indices `m .. m+n-1` still to come: it goes through if they
all succeed. -/
theorem callbackWalk_from (port : CbPort) (n m : Nat) (s : State) (hn : m + n ≤ Config.maxLeds)
    (h : AllSucceed port s (m + n)) :
    callbackWalk port (List.range' m n) (walked port m s) = ret .success (walked port (m + n) s) := by
  induction n generalizing m with
  | zero => rfl
  | succ n ih =>
    have hm : m < Config.maxLeds := by omega
    have hslot := slot_isSome s.ctx m hm
    have hres := h m _ (by omega) hslot
    rw [List.range'_succ, callbackWalk, slot_walked_of_le port s (Nat.le_refl m), hslot]
    simp only
    rw [exchange_walked port m _ s hslot, hres]
    simp only
    rw [ih (m + 1) (by omega) (by rwa [show m + 1 + n = m + (n + 1) by omega])]
    rw [show m + 1 + n = m + (n + 1) by omega]

/-- A walk over `n` LEDs whose answers all succeed (R135, R145). -/
theorem callbackWalk_success (port : CbPort) (n : Nat) (s : State) (hn : n ≤ Config.maxLeds)
    (h : AllSucceed port s n) :
    callbackWalk port (List.range n) s = ret .success (walked port n s) := by
  have := callbackWalk_from port n 0 s (by omega) (by simpa using h)
  simpa [List.range_eq_range'] using this

/-- A walk whose first failing answer is that for LED `m`: later LEDs are not requested, and the failing callback's
own slot keeps what it left (R135, R145). -/
theorem callbackWalk_failure (port : CbPort) (n m : Nat) (s : State) (hm : m < n) (h : FailsFirstAt port s m) :
    callbackWalk port (List.range n) s = ret .invalidArgument (walked port (m + 1) s) := by
  have hmax : m < Config.maxLeds := by
    obtain ⟨_, cin, hslot, _⟩ := h
    refine Nat.lt_of_not_le fun hle => ?_
    rw [slot_none _ _ hle] at hslot
    cases hslot
  have key : ∀ d a, a + d = m →
      callbackWalk port (List.range' a (n - a)) (walked port a s) =
        ret .invalidArgument (walked port (m + 1) s) := by
    intro d
    induction d with
    | zero =>
      intro a ha
      obtain rfl : a = m := by omega
      obtain ⟨_, cin, hslot, hres⟩ := h
      rw [show n - a = (n - a - 1) + 1 by omega, List.range'_succ, callbackWalk,
        slot_walked_of_le port s (Nat.le_refl a), hslot]
      simp only
      rw [exchange_walked port a _ s hslot, hres]
    | succ d ih =>
      intro a ha
      have hslot := slot_isSome s.ctx a (by omega)
      have hres := h.1 a _ (by omega) hslot
      rw [show n - a = (n - (a + 1)) + 1 by omega, List.range'_succ, callbackWalk,
        slot_walked_of_le port s (Nat.le_refl a), hslot]
      simp only
      rw [exchange_walked port a _ s hslot, hres]
      exact ih (a + 1) (by omega)
  have := key m 0 (by omega)
  simpa [List.range_eq_range'] using this

/-- Either all the answers below `n` succeed, or there is a first one that fails. -/
theorem allSucceed_or_failsFirst (port : CbPort) (s : State) (n : Nat) (hn : n ≤ Config.maxLeds) :
    AllSucceed port s n ∨ ∃ m, m < n ∧ FailsFirstAt port s m := by
  induction n with
  | zero => exact .inl fun i _ hi => by omega
  | succ n ih =>
    rcases ih (by omega) with hall | ⟨m, hm, hfail⟩
    · have hslot := slot_isSome s.ctx n (by omega)
      cases hres : (answerAt port s n s.ctx.colors[n]).res with
      | success =>
        refine .inl fun i cin hi hcin => ?_
        by_cases hin : i = n
        · subst hin
          rw [hslot] at hcin
          cases hcin
          exact hres
        · exact hall i cin (by omega) hcin
      | invalidArgument => exact .inr ⟨n, by omega, hall, _, hslot, hres⟩
    · exact .inr ⟨m, by omega, hfail⟩

/-- The two ways the walk of an optional callback ends (R135, R145). -/
theorem optionalWalk_cases (port : CbPort) (cb : CbArg) (n : LedCount) (s : State) (hn : n.toNat ≤ Config.maxLeds) :
    (CallbackSucceeds port cb s n ∧ optionalWalk port cb n s = ret .success (walked port (requests cb n) s)) ∨
      (cb = .supplied ∧ ∃ m, m < n.toNat ∧ FailsFirstAt port s m ∧
        optionalWalk port cb n s = ret .invalidArgument (walked port (m + 1) s)) := by
  cases cb with
  | absent => exact .inl ⟨nofun, by simp [optionalWalk, requests]⟩
  | supplied =>
    rcases allSucceed_or_failsFirst port s n.toNat hn with h | ⟨m, hm, h⟩
    · exact .inl ⟨fun _ => h, callbackWalk_success port n.toNat s hn h⟩
    · exact .inr ⟨rfl, m, hm, h, callbackWalk_failure port n.toNat m s hm h⟩

/-- A walk that has succeeded up to the end of the buffer and would go on faults. -/
theorem callbackWalk_past (port : CbPort) (n : Nat) (s : State) (hn : Config.maxLeds < n)
    (h : AllSucceed port s Config.maxLeds) : callbackWalk port (List.range n) s = .fault .bufferIndexOutOfRange := by
  have key : ∀ d a, a + d = Config.maxLeds →
      callbackWalk port (List.range' a (n - a)) (walked port a s) = .fault .bufferIndexOutOfRange := by
    intro d
    induction d with
    | zero =>
      intro a ha
      rw [show n - a = (n - a - 1) + 1 by omega, List.range'_succ, callbackWalk,
        slot_walked_of_le port s (Nat.le_refl a), slot_none _ _ (by omega)]
    | succ d ih =>
      intro a ha
      have hslot := slot_isSome s.ctx a (by omega)
      have hres := h a _ (by omega) hslot
      rw [show n - a = (n - (a + 1)) + 1 by omega, List.range'_succ, callbackWalk,
        slot_walked_of_le port s (Nat.le_refl a), hslot]
      simp only
      rw [exchange_walked port a _ s hslot, hres]
      exact ih (a + 1) (by omega)
  have := key Config.maxLeds 0 (by omega)
  simpa [List.range_eq_range'] using this

/-- What the walk of an optional callback answers, whatever the count: a next state only if it succeeded throughout or
met a first failing answer (R135, R145). -/
theorem optionalWalk_eq_next {port : CbPort} {cb : CbArg} {n : LedCount} {s s' : State} {r : Result}
    (h : optionalWalk port cb n s = .next (r, s')) :
    (r = .success ∧ CallbackSucceeds port cb s n ∧ s' = walked port (requests cb n) s) ∨
      (r = .invalidArgument ∧ cb = .supplied ∧ ∃ m, m < n.toNat ∧ FailsFirstAt port s m ∧
        s' = walked port (m + 1) s) := by
  by_cases hn : n.toNat ≤ Config.maxLeds
  · rcases optionalWalk_cases port cb n s hn with ⟨hc, he⟩ | ⟨hs, m, hm, hf, he⟩ <;> rw [he] at h <;> cases h
    · exact .inl ⟨rfl, hc, rfl⟩
    · exact .inr ⟨rfl, hs, m, hm, hf, rfl⟩
  · cases cb with
    | absent => cases h; exact .inl ⟨rfl, nofun, by simp [requests]⟩
    | supplied =>
      rcases allSucceed_or_failsFirst port s Config.maxLeds (Nat.le_refl _) with hall | ⟨m, hm, hf⟩
      · rw [optionalWalk, callbackWalk_past port _ s (by omega) hall] at h; cases h
      · rw [optionalWalk, callbackWalk_failure port _ m s (by omega) hf] at h
        cases h
        exact .inr ⟨rfl, rfl, m, by omega, hf, rfl⟩

theorem optionalWalk_success (port : CbPort) (cb : CbArg) (n : LedCount) (s : State) (hn : n.toNat ≤ Config.maxLeds)
    (h : CallbackSucceeds port cb s n) :
    optionalWalk port cb n s = ret .success (walked port (requests cb n) s) := by
  cases cb with
  | absent => simp [optionalWalk, requests]
  | supplied => exact callbackWalk_success port n.toNat s hn (h rfl)

end Sys2Proof.Machine
end

