-- ==== Sys2Proof/Laws/Encoder.lean ====
section
/-! SUPPORT. The encoder: what one bit-pulse, one byte, a stretch of bytes, and a whole `TRANSMIT` do, each as one
closed form (41_protocol_encoder R171 to R185). -/

namespace Sys2Proof.Machine

@[simp] theorem walkTo_ctx (k j : Nat) (s : State) : (walkTo k j s).ctx = s.ctx := rfl
@[simp] theorem highPhase_ctx (s : State) : (highPhase s).ctx = s.ctx := rfl
@[simp] theorem highPhase_k (s : State) : (highPhase s).k = s.k := rfl
@[simp] theorem highPhase_j (s : State) : (highPhase s).j = s.j := rfl

/-- The state after a bit-pulse of value `v` at bit `j` of byte `k`. -/
def pulsed (k j : Nat) (v : Bool) (s : State) : State :=
  { s with
    k := BitVec.ofNat 10 k
    j := BitVec.ofNat 3 j
    phase := .lowC
    gpio := s.gpio.set s.ctx.binding.port.toNat s.patLo s.ctx.binding.port.isLt
    trace := s.trace ++ pulseEvents s.ctx.binding.port s.patHi s.patLo v }

theorem lowPhase_windowPhase_highPhase (k j : Nat) (v : Bool) (s : State) :
    lowPhase (windowPhase v (highPhase (walkTo k j s))) = pulsed k j v s := by
  cases v <;>
    simp [lowPhase, windowPhase, highPhase, walkTo, pulsed, pulseEvents, delay, emit, writePort, gpioSet]

/-- The bit the walker stands at, while its registers hold `k` and `j`. -/
theorem currentBit_eq (s : State) (k j : Nat) (v : Chan) (hk : k < 2 ^ 10) (hj : j < 8)
    (hsk : s.k = BitVec.ofNat 10 k) (hsj : s.j = BitVec.ofNat 3 j) (h : bufferByte s.ctx k = some v) :
    currentBit s = some (v.getLsbD j) := by
  have h1 : s.k.toNat = k := by rw [hsk, BitVec.toNat_ofNat, Nat.mod_eq_of_lt hk]
  have h2 : s.j.toNat = j := by rw [hsj, BitVec.toNat_ofNat, Nat.mod_eq_of_lt hj]
  simp [currentBit, h1, h2, h]

/-- The loop body, lines 9 to 14 (R180 to R182). -/
theorem bitPulse_eq (k j : Nat) (s : State) (v : Chan) (hk : k < 2 ^ 10) (hj : j < 8)
    (h : bufferByte s.ctx k = some v) : bitPulse k j s = .next (pulsed k j (v.getLsbD j) s) := by
  have hbit : currentBit (highPhase (walkTo k j s)) = some (v.getLsbD j) :=
    currentBit_eq _ k j v hk hj rfl rfl h
  simp only [bitPulse, window, hbit, andThen_next, lowPhase_windowPhase_highPhase]

/-- The state after the eight bit-pulses of byte `k`, whose content is `v`. -/
def byteSent (k : Nat) (v : Chan) (s : State) : State :=
  { s with
    k := BitVec.ofNat 10 k
    j := 0
    phase := .lowC
    gpio := s.gpio.set s.ctx.binding.port.toNat s.patLo s.ctx.binding.port.isLt
    trace := s.trace ++ byteEvents s.ctx.binding.port s.patHi s.patLo v }

/-- The inner loop (R178). -/
theorem bytePulses_eq (k : Nat) (s : State) (v : Chan) (hk : k < 2 ^ 10) (h : bufferByte s.ctx k = some v) :
    bytePulses k s = .next (byteSent k v s) := by
  have go : ∀ j js, j < 8 → ∀ t : State, t.ctx = s.ctx →
      forEach (bitPulse k) (j :: js) t = forEach (bitPulse k) js (pulsed k j (v.getLsbD j) t) := by
    intro j js hj t ht
    rw [forEach_cons, bitPulse_eq k j t v hk hj (by rw [ht]; exact h), andThen_next]
  rw [bytePulses, msbFirst, go 7, go 6, go 5, go 4, go 3, go 2, go 1, go 0, forEach_nil]
  · simp [pulsed, byteSent, byteEvents, wireBits, msbFirst]
  all_goals first | rfl | decide

/-- The bytes `x[0 .. m-1]`. -/
def bytesBelow (c : Ctx) (m : Nat) : List Chan := (activeBytes c).take m

/-- The state after the bytes `0 .. m-1`. -/
def bytesSent (m : Nat) (s : State) : State :=
  if m = 0 then s
  else
    { s with
      k := BitVec.ofNat 10 (m - 1)
      j := 0
      phase := .lowC
      gpio := s.gpio.set s.ctx.binding.port.toNat s.patLo s.ctx.binding.port.isLt
      trace := s.trace ++ (bytesBelow s.ctx m).flatMap (byteEvents s.ctx.binding.port s.patHi s.patLo) }

theorem byteSent_bytesSent (m : Nat) (v : Chan) (s : State) (h : (activeBytes s.ctx)[m]? = some v) :
    byteSent m v (bytesSent m s) = bytesSent (m + 1) s := by
  have htake : bytesBelow s.ctx (m + 1) = bytesBelow s.ctx m ++ [v] := by
    simp [bytesBelow, List.take_add_one, h]
  by_cases hm : m = 0
  · subst hm
    have hzero : bytesBelow s.ctx 0 = [] := rfl
    rw [hzero, List.nil_append] at htake
    simp [byteSent, bytesSent, htake]
  · simp [byteSent, bytesSent, htake, hm]

@[simp] theorem bytesSent_ctx (m : Nat) (s : State) : (bytesSent m s).ctx = s.ctx := by
  unfold bytesSent; split <;> rfl

/-- The outer loop (R177): the active bytes, each once, in ascending order. -/
theorem forEach_bytePulses (m : Nat) (s : State) (hc : m ≤ 3 * Config.maxLeds) (hm : m ≤ byteCount s.ctx) : forEach bytePulses (List.range m) s = .next (bytesSent m s) := by
  induction m with
  | zero => rfl
  | succ m ih =>
    have hmax : Config.maxLeds = 64 := rfl
    obtain ⟨v, hv⟩ := bufferByte_isSome s.ctx m (by omega)
    rw [List.range_succ, forEach_append, ih (by omega) (by omega), andThen_next, forEach_cons,
      bytePulses_eq m _ v (by omega) (by simpa using hv), andThen_next, forEach_nil]
    rw [byteSent_bytesSent m v s (by rw [activeBytes_getElem? _ _ (by omega)]; exact hv)]

/-- Both preconditions of R172 hold. -/
theorem transmitCheck_eq_none {s : State} :
    transmitCheck s = none ↔ isInitialized s = true ∧ isPoweredOn s = true ∧ byteCount s.ctx ≠ 0 := by
  unfold transmitCheck
  cases isInitialized s <;> cases isPoweredOn s <;> simp

/-- Everything a `TRANSMIT` whose preconditions hold does (R171, R198: no other way out). -/
theorem opTransmit_eq (s : State) (h : transmitCheck s = none) (hc : s.ctx.count.toNat ≤ Config.maxLeds) :
    opTransmit s = ret .success (transmitted s) := by
  have hpos := (transmitCheck_eq_none.mp h).2.2
  have hwalk : walk (lock (snapshot s)) = .next (bytesSent (byteCount s.ctx) (lock (snapshot s))) :=
    forEach_bytePulses _ _ (Nat.mul_le_mul_left 3 hc) (Nat.le_refl _)
  have hlen : (activeBytes s.ctx).take (byteCount s.ctx) = activeBytes s.ctx := by
    exact List.take_of_length_le (Nat.le_of_eq (activeBytes_length _ hc))
  simp only [opTransmit, h, hwalk, andThen_next]
  simp [bytesSent, hpos, bytesBelow, lock, snapshot, unlock, latch, delay, emit, writePort, gpioSet, transmitted,
    txEvents, hlen]

/-- A byte past the buffer faults at its first bit (log 8). -/
theorem bytePulses_past (k : Nat) (s : State) (hk : k < 2 ^ 10) (h : bufferByte s.ctx k = none) :
    bytePulses k s = .fault .bufferIndexOutOfRange := by
  have h1 : (BitVec.ofNat 10 k).toNat = k := by rw [BitVec.toNat_ofNat, Nat.mod_eq_of_lt hk]
  have hbit : currentBit (highPhase (walkTo k 7 s)) = none := by
    simp [currentBit, walkTo, h1, h]
  simp [bytePulses, msbFirst, bitPulse, window, hbit]

/-- A walk whose count is past the buffer faults (log 8). -/
theorem walk_past (s : State) (hc : Config.maxLeds < s.ctx.count.toNat) :
    walk s = .fault .bufferIndexOutOfRange := by
  have hmax : Config.maxLeds = 64 := rfl
  have hsplit : List.range (byteCount s.ctx) =
      List.range (3 * Config.maxLeds) ++
        (3 * Config.maxLeds) :: List.range' (3 * Config.maxLeds + 1) (byteCount s.ctx - 3 * Config.maxLeds - 1) := by
    have h := @List.range'_append_1 0 (3 * Config.maxLeds) (byteCount s.ctx - 3 * Config.maxLeds - 1 + 1)
    rw [Nat.zero_add] at h
    rw [← List.range'_succ, List.range_eq_range', List.range_eq_range', h]
    congr 1
    unfold byteCount
    omega
  rw [walk, hsplit, forEach_append, forEach_bytePulses _ s (Nat.le_refl _) (by unfold byteCount; omega), andThen_next,
    forEach_cons, bytePulses_past _ _ (by omega), andThen_fault]
  rw [bytesSent_ctx, bufferByte, slot_none _ _ (by omega), Option.map_none]

/-- What a `TRANSMIT` answers, whatever the state: a next state only if a precondition failed, with nothing changed, or
the whole frame was sent (R198). -/
theorem opTransmit_eq_next {s s' : State} {r : Result} (h : opTransmit s = .next (r, s')) :
    (transmitCheck s = some r ∧ s' = s) ∨ (transmitCheck s = none ∧ s.ctx.count.toNat ≤ Config.maxLeds ∧
      r = .success ∧ s' = transmitted s) := by
  cases ht : transmitCheck s with
  | some q =>
    rw [opTransmit, ht] at h
    cases h
    exact .inl ⟨rfl, rfl⟩
  | none =>
    by_cases hc : s.ctx.count.toNat ≤ Config.maxLeds
    · rw [opTransmit_eq s ht hc] at h
      cases h
      exact .inr ⟨rfl, hc, rfl, rfl⟩
    · rw [opTransmit, ht] at h
      simp only at h
      rw [walk_past _ (by simpa [lock, snapshot] using Nat.lt_of_not_le hc)] at h
      cases h

end Sys2Proof.Machine
end

