-- ==== Sys2Proof/Laws/Commands.lean ====
section
/-! SUPPORT. The sub-operations: what each does once its checks have passed, as a closed form, for whatever started it
(40_device_ops R130). -/

namespace Sys2Proof.Machine

/-! Checks. -/

theorem poweredCheck_eq_none {s : State} :
    poweredCheck s = none ↔ isInitialized s = true ∧ isPoweredOn s = true := by
  unfold poweredCheck
  cases isInitialized s <;> cases isPoweredOn s <;> simp

theorem unpoweredCheck_eq_none {s : State} :
    unpoweredCheck s = none ↔ isInitialized s = true ∧ isPoweredOn s = false := by
  unfold unpoweredCheck
  cases isInitialized s <;> cases isPoweredOn s <;> simp

theorem byteCount_ne_zero {c : Ctx} (h : 1 ≤ c.count.toNat) : byteCount c ≠ 0 := by
  unfold byteCount; omega

/-! `POWER_OFF` and `UNINIT`. -/

theorem opPowerOff_on {s : State} (hI : isInitialized s = true) (hP : isPoweredOn s = true) :
    opPowerOff s = ret .success (powerSwitched false s) := by
  rw [opPowerOff, poweredCheck_eq_none.mpr ⟨hI, hP⟩]
  simp only [switchPower_eq]

/-- `UNINIT` of an initialized context succeeds, by way of the power-off if it is on (R148). -/
theorem opUninit_initialized {s : State} (hI : isInitialized s = true) :
    opUninit s = ret .success (cleared (if isPoweredOn s then powerSwitched false s else s)) := by
  cases hP : isPoweredOn s
  · simp [opUninit, hI, hP, clearContext_eq]
  · simp [opUninit, hI, hP, clearContext_eq, opPowerOff_on hI hP]

/-! `UPDATE` and `POWER_ON`. -/

/-- `UPDATE` up to its count, when no callback fails. -/
theorem opUpdate_callbackSucceeds {s : State} {ucb : CbArg} (hI : isInitialized s = true) (hP : isPoweredOn s = true)
    (hpos : 1 ≤ s.ctx.count.toNat) (hle : s.ctx.count.toNat ≤ Config.maxLeds)
    (hcb : CallbackSucceeds .update ucb s s.ctx.count) :
    opUpdate ucb s = countUpdate (transmitted (walked .update (requests ucb s.ctx.count) s)) := by
  have ht : transmitCheck (walked .update (requests ucb s.ctx.count) s) = none :=
    transmitCheck_eq_none.mpr ⟨hI, hP, byteCount_ne_zero (c := (walked .update _ s).ctx) hpos⟩
  rw [opUpdate, poweredCheck_eq_none.mpr ⟨hI, hP⟩]
  simp only
  rw [optionalWalk_success _ _ _ _ hle hcb, onSuccess_ret_success, opTransmit_eq _ ht hle, onSuccess_ret_success]

/-- `UPDATE` whose callback first fails at LED `m`. -/
theorem opUpdate_callbackFails {s : State} {m : Nat} (hI : isInitialized s = true) (hP : isPoweredOn s = true)
    (hm : m < s.ctx.count.toNat) (hf : FailsFirstAt .update s m) :
    opUpdate .supplied s = ret .invalidArgument (walked .update (m + 1) s) := by
  rw [opUpdate, poweredCheck_eq_none.mpr ⟨hI, hP⟩]
  simp only [optionalWalk]
  rw [callbackWalk_failure _ _ _ _ hm hf, onSuccess_ret _ _ _ (by decide), onSuccess_ret _ _ _ (by decide)]

theorem countUpdate_below {s : State} (h : s.ctx.iteration ≠ iterationMax) :
    countUpdate s = ret .success (counted s) := by
  rw [countUpdate, if_neg h]; rfl

theorem countUpdate_max {s : State} (h : s.ctx.iteration = iterationMax) :
    countUpdate s = .refused .iterationAtMaximum := by
  rw [countUpdate, if_pos h]

theorem opPowerOn_off {s : State} (ucb : CbArg) (hI : isInitialized s = true) (hP : isPoweredOn s = false) :
    opPowerOn ucb s = opUpdate ucb (powerSwitched true s) := by
  rw [opPowerOn, unpoweredCheck_eq_none.mpr ⟨hI, hP⟩]
  simp only [switchPower_eq]

/-! What each sub-operation answers, whatever the state: "if it answers `next`, then one of these". -/

theorem opPowerOff_eq_next {s s' : State} {r : Result} (h : opPowerOff s = .next (r, s')) :
    (poweredCheck s = some r ∧ s' = s) ∨
      (isInitialized s = true ∧ isPoweredOn s = true ∧ r = .success ∧ s' = powerSwitched false s) := by
  cases hc : poweredCheck s with
  | some q =>
    rw [opPowerOff, hc] at h
    cases h
    exact .inl ⟨rfl, rfl⟩
  | none =>
    obtain ⟨hI, hP⟩ := poweredCheck_eq_none.mp hc
    rw [opPowerOff_on hI hP] at h
    cases h
    exact .inr ⟨hI, hP, rfl, rfl⟩

theorem opUninit_eq_next {s s' : State} {r : Result} (h : opUninit s = .next (r, s')) :
    (isInitialized s = false ∧ r = .invalidArgument ∧ s' = s) ∨
      (isInitialized s = true ∧ r = .success ∧ s' = cleared (if isPoweredOn s then powerSwitched false s else s)) := by
  cases hI : isInitialized s
  · rw [opUninit, if_pos hI] at h
    cases h
    exact .inl ⟨rfl, rfl, rfl⟩
  · rw [opUninit_initialized hI] at h
    cases h
    exact .inr ⟨rfl, rfl, rfl⟩

/-- `UPDATE`: a check refused it, the callback failed at some LED, the buffer was empty, or a frame was sent and an
update counted. -/
theorem opUpdate_eq_next {s s' : State} {ucb : CbArg} {r : Result} (h : opUpdate ucb s = .next (r, s')) :
    (poweredCheck s = some r ∧ s' = s) ∨
      (isInitialized s = true ∧ isPoweredOn s = true ∧
        ((r = .invalidArgument ∧ ucb = .supplied ∧ ∃ m, m < s.ctx.count.toNat ∧ FailsFirstAt .update s m ∧
            s' = walked .update (m + 1) s) ∨
          (r = .invalidData ∧ s.ctx.count.toNat = 0 ∧ s' = s) ∨
          (r = .success ∧ s.ctx.count.toNat ≤ Config.maxLeds ∧ s.ctx.iteration ≠ iterationMax ∧
            CallbackSucceeds .update ucb s s.ctx.count ∧
            s' = counted (transmitted (walked .update (requests ucb s.ctx.count) s))))) := by
  cases hc : poweredCheck s with
  | some q =>
    rw [opUpdate, hc] at h
    cases h
    exact .inl ⟨rfl, rfl⟩
  | none =>
    obtain ⟨hI, hP⟩ := poweredCheck_eq_none.mp hc
    refine .inr ⟨hI, hP, ?_⟩
    rw [opUpdate, hc] at h
    rcases onSuccess_eq_next h with ⟨s₂, h₂, hcount⟩ | ⟨h₂, hr⟩ <;>
      rcases onSuccess_eq_next h₂ with ⟨s₁, h₁, ht⟩ | ⟨h₁, hr₁⟩
    · rcases optionalWalk_eq_next h₁ with ⟨_, hcb, rfl⟩ | ⟨hr, _⟩
      · rcases opTransmit_eq_next ht with ⟨hf, _⟩ | ⟨_, hle, _, rfl⟩
        · simp [transmitCheck, hI, hP] at hf
        · by_cases hit : s.ctx.iteration = iterationMax
          · rw [countUpdate_max (by exact hit)] at hcount; cases hcount
          · rw [countUpdate_below (by exact hit)] at hcount
            cases hcount
            exact .inr (.inr ⟨rfl, hle, hit, hcb, rfl⟩)
      · cases hr
    · exact absurd rfl hr₁
    · rcases optionalWalk_eq_next h₁ with ⟨_, _, rfl⟩ | ⟨hr', _⟩
      · rcases opTransmit_eq_next ht with ⟨hf, rfl⟩ | ⟨_, _, hr', _⟩
        · rw [transmitCheck, if_neg (by simp [hI, hP])] at hf
          obtain ⟨hbytes, hdata⟩ : byteCount s.ctx = 0 ∧ r = .invalidData := by
            split at hf
            · next hb => cases hf; exact ⟨hb, rfl⟩
            · cases hf
          have hzero : s.ctx.count.toNat = 0 := by unfold byteCount at hbytes; omega
          have hreq : requests ucb s.ctx.count = 0 := by cases ucb <;> simp [requests, hzero]
          exact .inr (.inl ⟨hdata, hzero, by rw [hreq, walked_zero]⟩)
        · exact absurd hr' hr
      · cases hr'
    · rcases optionalWalk_eq_next h₁ with ⟨hr', _⟩ | ⟨hr', hs, m, hm, hf, rfl⟩
      · exact absurd hr' hr₁
      · exact .inl ⟨hr', hs, m, hm, hf, rfl⟩

theorem opPowerOn_eq_next {s s' : State} {ucb : CbArg} {r : Result} (h : opPowerOn ucb s = .next (r, s')) :
    (unpoweredCheck s = some r ∧ s' = s) ∨
      (isInitialized s = true ∧ isPoweredOn s = false ∧ opUpdate ucb (powerSwitched true s) = .next (r, s')) := by
  cases hc : unpoweredCheck s with
  | some q =>
    rw [opPowerOn, hc] at h
    cases h
    exact .inl ⟨rfl, rfl⟩
  | none =>
    obtain ⟨hI, hP⟩ := unpoweredCheck_eq_none.mp hc
    rw [opPowerOn_off ucb hI hP] at h
    exact .inr ⟨hI, hP, h⟩

/-! `INIT`. -/

/-- The count check of `INIT` passes (R132). -/
theorem countOk_check {n : LedCount} (h : 1 ≤ n.toNat) (hle : n.toNat ≤ Config.maxLeds) :
    ¬(n = 0 ∨ Config.maxLeds < n.toNat) := by
  rintro (rfl | h')
  · exact absurd h (by decide)
  · omega

/-- The implicit `UNINIT` of `INIT` succeeds and leaves what the binding starts on (R133). -/
theorem implicitUninit (s : State) :
    (if isInitialized s then opUninit s else ret .success s) = ret .success (beforeBinding s) := by
  cases hI : isInitialized s
  · simp [beforeBinding, lifecycle, hI]
  · rw [if_pos rfl, opUninit_initialized hI]
    cases hP : isPoweredOn s <;> simp [beforeBinding, lifecycle, hI, hP]

/-- `INIT` past its count check: the walk over the bound context, then the power-on if asked for (R131). -/
theorem opInit_countOk (s : State) (b : Binding) (n : LedCount) (icb : CbArg) (pwr : Bool) (ucb : CbArg)
    (h : CountOk n) :
    opInit b n icb pwr ucb s =
      onSuccess (optionalWalk .init icb n (bound b n (beforeBinding s))) fun s₂ =>
        if pwr then powerOnOrRollBack ucb s₂ else ret .success s₂ := by
  rw [opInit, if_neg (countOk_check h.1 h.2), implicitUninit, onSuccess_ret_success, bindPins_eq]

/-- `INIT`: a bad count, a failing init callback, no power-on asked for, a power-on that succeeded, or one that failed
and was rolled back. -/
theorem opInit_eq_next {s s' : State} {b : Binding} {n : LedCount} {icb ucb : CbArg} {pwr : Bool} {r : Result}
    (h : opInit b n icb pwr ucb s = .next (r, s')) :
    (¬CountOk n ∧ r = .invalidArgument ∧ s' = s) ∨
      (CountOk n ∧
        ((r = .invalidArgument ∧ icb = .supplied ∧ ∃ m, m < n.toNat ∧
            s' = walked .init (m + 1) (bound b n (beforeBinding s))) ∨
          (pwr = false ∧ r = .success ∧ s' = walked .init (requests icb n) (bound b n (beforeBinding s))) ∨
          (pwr = true ∧ r = .success ∧
            opPowerOn ucb (walked .init (requests icb n) (bound b n (beforeBinding s))) = .next (.success, s')) ∨
          (pwr = true ∧ r ≠ .success ∧ ∃ s₂ r₂,
            opPowerOn ucb (walked .init (requests icb n) (bound b n (beforeBinding s))) = .next (r, s₂) ∧
            opUninit s₂ = .next (r₂, s')))) := by
  by_cases hok : CountOk n
  · refine .inr ⟨hok, ?_⟩
    rw [opInit_countOk s b n icb pwr ucb hok] at h
    rcases onSuccess_eq_next h with ⟨s₂, hw, hp⟩ | ⟨hw, hr⟩ <;>
      rcases optionalWalk_eq_next hw with ⟨hr', hcb, hs⟩ | ⟨hr', hsup, m, hm, _, hs⟩
    · subst hs
      cases pwr
      · cases hp
        exact .inr (.inl ⟨rfl, rfl, rfl⟩)
      · simp only [if_true] at hp
        obtain ⟨⟨r₁, s₁⟩, hon, hrest⟩ := andThen_eq_next hp
        by_cases hr₁ : r₁ = .success
        · subst hr₁
          cases hrest
          exact .inr (.inr (.inl ⟨rfl, rfl, hon⟩))
        · simp only [hr₁, if_false] at hrest
          obtain ⟨⟨r₂, s₂⟩, hun, hlast⟩ := andThen_eq_next hrest
          cases hlast
          exact .inr (.inr (.inr ⟨rfl, hr₁, s₁, r₂, hon, hun⟩))
    · cases hr'
    · exact absurd hr' hr
    · exact .inl ⟨hr', hsup, m, hm, hs⟩
  · have hbad : n = 0 ∨ Config.maxLeds < n.toNat := by
      by_cases hn : n.toNat = 0
      · exact .inl (BitVec.eq_of_toNat_eq (by simpa using hn))
      · exact .inr (Nat.lt_of_not_le fun hle => hok ⟨Nat.one_le_iff_ne_zero.mpr hn, hle⟩)
    rw [opInit, if_pos hbad] at h
    cases h
    exact .inl ⟨hok, rfl, rfl⟩

end Sys2Proof.Machine
end

