-- ==== Sys2Proof/Laws/Decode.lean ====
section
/-! SUPPORT. The fields of a word and the word of the fields are inverse to each other (30_encoding R91, R92). -/

namespace Sys2Proof

theorem fieldsOf_word (f : Fields) : fieldsOf f.word = f := by
  obtain ⟨portSel, ddrSel, rsv1, pwrPin, dataPin, count, rsv0, pwr, ucb, icb, op⟩ := f
  simp only [fieldsOf, Fields.word, Fields.mk.injEq]
  refine ⟨?_, ?_, ?_, ?_, ?_, ?_, ?_, ?_, ?_, ?_, ?_⟩
  all_goals first
    | (apply BitVec.eq_of_getLsbD_eq
       simp only [BitVec.getLsbD_extractLsb', BitVec.getLsbD_append]
       simp only [Nat.forall_lt_succ_right]
       simp)
    | (simp only [BitVec.getLsbD_append]; simp)

theorem word_fieldsOf (w : CmdWord) : (fieldsOf w).word = w := by
  apply BitVec.eq_of_getLsbD_eq
  simp only [fieldsOf, Fields.word, BitVec.getLsbD_append, BitVec.getLsbD_extractLsb']
  simp only [Nat.forall_lt_succ_right]
  simp

/-- The encoder's word has the fields of the command. -/
theorem fieldsOf_encode (i : Instr) : fieldsOf (encode i) = i.fields := fieldsOf_word i.fields

@[simp] theorem cbArgOf_bit (cb : CbArg) : cbArgOf cb.bit = cb := by cases cb <;> rfl
@[simp] theorem bit_cbArgOf (v : Bool) : (cbArgOf v).bit = v := by cases v <;> rfl

/-- The fields of every command are well formed (R94). -/
theorem fields_wf (i : Instr) : i.fields.illegal = none := by
  cases i with
  | init => rfl
  | powerOn ucb => cases ucb <;> rfl
  | powerOff => rfl
  | update ucb => cases ucb <;> rfl
  | uninit => rfl

/-- Decoding is decided by the fields: when they are well formed, the word is the command of its opcode. -/
theorem decode_eq_command_iff (w : CmdWord) (i : Instr) :
    decode w = .command i ↔ (fieldsOf w).illegal = none ∧ (fieldsOf w).command = some i := by
  unfold decode
  cases (fieldsOf w).illegal <;> cases (fieldsOf w).command <;> simp

end Sys2Proof
end

