-- ==== Sys2Proof/Laws/PerInstr.lean ====
section
/-! SUPPORT. Statements made of every command as syntax, one lemma per constructor. Family `RowMatch`: the word the
encoder gives a command selects the command's own row of the opcode table (30_encoding R94). -/

namespace Sys2Proof.Laws.RowMatch

/-- The encoder's word matches the row of the command. -/
abbrev Statement (i : Instr) : Prop := i.row.selects (encode i) = true

theorem init (b : Binding) (n : LedCount) (icb : CbArg) (pwr : Bool) (ucb : CbArg) :
    Statement (.init b n icb pwr ucb) := by
  have h : encode (.init b n icb pwr ucb) &&& 0x00C000C7#32 = 0x00000001#32 := by
    apply BitVec.eq_of_getLsbD_eq
    simp only [encode, Instr.fields, Fields.word, BitVec.getLsbD_and, BitVec.getLsbD_append]
    simp only [Nat.forall_lt_succ_right]
    simp
  simp [Statement, Row.selects, Instr.row, h]

theorem powerOn (ucb : CbArg) : Statement (.powerOn ucb) := by cases ucb <;> decide

theorem powerOff : Statement .powerOff := by decide

theorem update (ucb : CbArg) : Statement (.update ucb) := by cases ucb <;> decide

theorem uninit : Statement .uninit := by decide

end Sys2Proof.Laws.RowMatch
end

