-- ==== Sys2Proof/Laws/Pieces.lean ====
section
/-! SUPPORT. The induction over what a command is made of, packaged once: a relation that is reflexive and transitive
and holds of every piece holds of every command, up to its response. -/

namespace Sys2Proof.Machine

/-- What a relation between the state before and the state after must satisfy, piece by piece. -/
structure Pieces (R : State → State → Prop) : Prop where
  refl : ∀ s, R s s
  trans : ∀ {s t u}, R s t → R t u → R s u
  power : ∀ on s, R s (powerSwitched on s)
  clear : ∀ s, R s (cleared s)
  bind : ∀ b n s, R s (bound b n s)
  walk : ∀ port m s, R s (walked port m s)
  transmit : ∀ s, R s (transmitted s)
  count : ∀ s, R s (counted s)

namespace Pieces
variable {R : State → State → Prop} (P : Pieces R)
include P

theorem opPowerOff {s s' : State} {r : Result} (h : opPowerOff s = .next (r, s')) : R s s' := by
  rcases opPowerOff_eq_next h with ⟨_, rfl⟩ | ⟨_, _, _, rfl⟩
  · exact P.refl _
  · exact P.power _ _

theorem opUninit {s s' : State} {r : Result} (h : opUninit s = .next (r, s')) : R s s' := by
  rcases opUninit_eq_next h with ⟨_, _, rfl⟩ | ⟨_, _, rfl⟩
  · exact P.refl _
  · split
    · exact P.trans (P.power _ _) (P.clear _)
    · exact P.clear _

theorem opUpdate {s s' : State} {ucb : CbArg} {r : Result} (h : opUpdate ucb s = .next (r, s')) : R s s' := by
  rcases opUpdate_eq_next h with ⟨_, rfl⟩ | ⟨_, _, ⟨_, _, m, _, _, rfl⟩ | ⟨_, _, rfl⟩ | ⟨_, _, _, _, rfl⟩⟩
  · exact P.refl _
  · exact P.walk _ _ _
  · exact P.refl _
  · exact P.trans (P.trans (P.walk _ _ _) (P.transmit _)) (P.count _)

theorem opPowerOn {s s' : State} {ucb : CbArg} {r : Result} (h : opPowerOn ucb s = .next (r, s')) : R s s' := by
  rcases opPowerOn_eq_next h with ⟨_, rfl⟩ | ⟨_, _, h⟩
  · exact P.refl _
  · exact P.trans (P.power _ _) (P.opUpdate h)

theorem beforeBinding (s : State) : R s (beforeBinding s) := by
  unfold Machine.beforeBinding
  split
  · exact P.refl _
  · exact P.clear _
  · exact P.trans (P.power _ _) (P.clear _)

theorem opInit {s s' : State} {b : Binding} {n : LedCount} {icb ucb : CbArg} {pwr : Bool} {r : Result}
    (h : opInit b n icb pwr ucb s = .next (r, s')) : R s s' := by
  have hb : R s (bound b n (Machine.beforeBinding s)) := P.trans (P.beforeBinding s) (P.bind _ _ _)
  rcases opInit_eq_next h with ⟨_, _, rfl⟩ | ⟨_, ⟨_, _, m, _, rfl⟩ | ⟨_, _, rfl⟩ | ⟨_, _, hp⟩ | ⟨_, _, s₂, _, hp, hu⟩⟩
  · exact P.refl _
  · exact P.trans hb (P.walk _ _ _)
  · exact P.trans hb (P.walk _ _ _)
  · exact P.trans hb (P.trans (P.walk _ _ _) (P.opPowerOn hp))
  · exact P.trans hb (P.trans (P.walk _ _ _) (P.trans (P.opPowerOn hp) (P.opUninit hu)))

/-- Every command, up to its response. -/
theorem exec {i : Instr} {s t : State} (h : exec i s = .next t) : ∃ r s', t = responded r s' ∧ R s s' := by
  cases i <;> obtain ⟨r, s', ho, rfl⟩ := respond_eq_next h
  · exact ⟨r, s', rfl, P.opInit ho⟩
  · exact ⟨r, s', rfl, P.opPowerOn ho⟩
  · exact ⟨r, s', rfl, P.opPowerOff ho⟩
  · exact ⟨r, s', rfl, P.opUpdate ho⟩
  · exact ⟨r, s', rfl, P.opUninit ho⟩

end Pieces

end Sys2Proof.Machine
end

