-- ==== Sys2Proof/Laws/Registers.lean ====
section
/-! SUPPORT. What each piece of a command leaves in each GPIO register, and on each pin. -/

namespace Sys2Proof.Machine

theorem gpio_set_ne (g : Vector PortWord Config.numRegs) {sel r : Sel} (v : PortWord) (h : r ≠ sel) :
    (g.set sel.toNat v sel.isLt)[r.toNat]'r.isLt = g[r.toNat]'r.isLt :=
  Vector.getElem_set_ne _ _ fun h' => h (BitVec.eq_of_toNat_eq h').symm

theorem gpioRead_powerSwitched (on : Bool) (s : State) (sel : Sel) :
    gpioRead (powerSwitched on s) sel =
      if sel = s.ctx.binding.port then
        (if on then withPin (boundPort s) s.ctx.binding.pwr else withoutPin (boundPort s) s.ctx.binding.pwr)
      else gpioRead s sel :=
  gpioRead_set _ s.gpio _ _ _ rfl

theorem gpioRead_transmitted (s : State) (sel : Sel) :
    gpioRead (transmitted s) sel =
      if sel = s.ctx.binding.port then withoutPin (boundPort s) s.ctx.binding.data else gpioRead s sel :=
  gpioRead_set _ s.gpio _ _ _ rfl

theorem gpioRead_cleared (s : State) (sel : Sel) :
    gpioRead (cleared s) sel = if sel = s.ctx.binding.ddr ∨ sel = s.ctx.binding.port then 0 else gpioRead s sel := by
  rw [gpioRead_set _ _ s.ctx.binding.port _ _ rfl]
  by_cases hp : sel = s.ctx.binding.port
  · simp [hp]
  · by_cases hd : sel = s.ctx.binding.ddr
    · subst hd
      simp
    · simp only [hp, hd, or_self, if_false]
      exact gpio_set_ne _ _ hd

theorem gpioRead_bound (b : Binding) (n : LedCount) (s : State) (sel : Sel) :
    gpioRead (bound b n s) sel =
      if sel = b.port then 0
      else if sel = b.ddr then withPin (withPin (gpioRead s b.ddr) b.pwr) b.data else gpioRead s sel := by
  rw [gpioRead_set _ _ b.port _ _ rfl]
  by_cases hp : sel = b.port
  · simp [hp]
  · simp only [hp, if_false]
    by_cases hd : sel = b.ddr
    · subst hd
      simp [withPin]
    · simp only [hd, if_false]
      exact gpio_set_ne _ _ hd

theorem gpioRead_walked (port : CbPort) (m : Nat) (s : State) (sel : Sel) :
    gpioRead (walked port m s) sel = gpioRead s sel := rfl

theorem levelOf_eq_low {ddr port : PortWord} {p : Pin} :
    levelOf ddr port p = .low ↔ pinBit ddr p = true ∧ pinBit port p = false := by
  unfold levelOf
  cases pinBit ddr p <;> cases pinBit port p <;> simp

theorem levelOf_eq_high {ddr port : PortWord} {p : Pin} :
    levelOf ddr port p = .high ↔ pinBit ddr p = true ∧ pinBit port p = true := by
  unfold levelOf
  cases pinBit ddr p <;> cases pinBit port p <;> simp

theorem levelOf_eq_z {ddr port : PortWord} {p : Pin} : levelOf ddr port p = .z ↔ pinBit ddr p = false := by
  unfold levelOf
  cases pinBit ddr p <;> cases pinBit port p <;> simp

end Sys2Proof.Machine
end

