-- ==== Sys2Proof/Laws/Runs.lean ====
section
/-! SUPPORT. What each operation answers when it starts from a well-formed state, every outcome by name: the inversions
of Laws/Commands.lean with the outcomes that no run reaches taken out. -/

namespace Sys2Proof.Machine

theorem State.Inv.countOk {s : State} (h : s.Inv) (hI : isInitialized s = true) : CountOk s.ctx.count :=
  ⟨h.count_pos hI, h.count_le⟩

/-- `INIT` always binds over the zero context (R40, R133). -/
theorem beforeBinding_ctx {s : State} (h : s.Inv) : (beforeBinding s).ctx = Ctx.zero := by
  unfold beforeBinding lifecycle
  cases hI : isInitialized s
  · exact h.unbound_zero hI
  · cases isPoweredOn s <;> rfl

theorem opPowerOff_outcomes {s s' : State} {r : Result} (h : opPowerOff s = .next (r, s')) :
    (isInitialized s = false ∧ r = .invalidArgument ∧ s' = s) ∨
      (isInitialized s = true ∧ isPoweredOn s = false ∧ r = .invalidState ∧ s' = s) ∨
      (isInitialized s = true ∧ isPoweredOn s = true ∧ r = .success ∧ s' = powerSwitched false s) := by
  cases hI : isInitialized s
  · simp [opPowerOff, poweredCheck, hI, ret] at h
    simp [h]
  · cases hP : isPoweredOn s
    · simp [opPowerOff, poweredCheck, hI, hP, ret] at h
      simp [h]
    · rw [opPowerOff_on hI hP] at h
      cases h
      simp

/-- `UPDATE` when powered on, with a count that `INIT` accepts. -/
theorem opUpdate_on_outcomes {s s' : State} {ucb : CbArg} {r : Result} (hI : isInitialized s = true)
    (hP : isPoweredOn s = true) (hc : CountOk s.ctx.count) (h : opUpdate ucb s = .next (r, s')) :
    (r = .invalidArgument ∧ ucb = .supplied ∧ ∃ m, m < s.ctx.count.toNat ∧ FailsFirstAt .update s m ∧
        s' = walked .update (m + 1) s) ∨
      (r = .success ∧ s.ctx.iteration ≠ iterationMax ∧
        s' = counted (transmitted (walked .update (requests ucb s.ctx.count) s))) := by
  rcases opUpdate_eq_next h with ⟨hf, _⟩ | ⟨_, _, hfail | ⟨_, hz, _⟩ | ⟨hr, _, hit, _, hs⟩⟩
  · rw [poweredCheck_eq_none.mpr ⟨hI, hP⟩] at hf
    cases hf
  · exact .inl hfail
  · exact absurd hc.1 (by omega)
  · exact .inr ⟨hr, hit, hs⟩

theorem opUpdate_outcomes {s s' : State} {ucb : CbArg} {r : Result} (hinv : s.Inv) (h : opUpdate ucb s = .next (r, s')) :
    (isInitialized s = false ∧ r = .invalidArgument ∧ s' = s) ∨
      (isInitialized s = true ∧ isPoweredOn s = false ∧ r = .invalidState ∧ s' = s) ∨
      (isInitialized s = true ∧ isPoweredOn s = true ∧
        ((r = .invalidArgument ∧ ucb = .supplied ∧ ∃ m, m < s.ctx.count.toNat ∧ FailsFirstAt .update s m ∧
            s' = walked .update (m + 1) s) ∨
          (r = .success ∧ s.ctx.iteration ≠ iterationMax ∧
            s' = counted (transmitted (walked .update (requests ucb s.ctx.count) s))))) := by
  cases hI : isInitialized s
  · simp [opUpdate, poweredCheck, hI, ret] at h
    simp [h]
  · cases hP : isPoweredOn s
    · simp [opUpdate, poweredCheck, hI, hP, ret] at h
      simp [h]
    · exact .inr (.inr ⟨rfl, rfl, opUpdate_on_outcomes hI hP (hinv.countOk hI) h⟩)

/-- `POWER_ON` when off, with a count that `INIT` accepts. -/
theorem opPowerOn_off_outcomes {s s' : State} {ucb : CbArg} {r : Result} (hI : isInitialized s = true)
    (hP : isPoweredOn s = false) (hc : CountOk s.ctx.count) (h : opPowerOn ucb s = .next (r, s')) :
    (r = .invalidArgument ∧ ucb = .supplied ∧ ∃ m, m < s.ctx.count.toNat ∧
        FailsFirstAt .update (powerSwitched true s) m ∧ s' = walked .update (m + 1) (powerSwitched true s)) ∨
      (r = .success ∧ s.ctx.iteration ≠ iterationMax ∧
        s' = counted (transmitted (walked .update (requests ucb s.ctx.count) (powerSwitched true s)))) := by
  rw [opPowerOn_off ucb hI hP] at h
  exact opUpdate_on_outcomes (s := powerSwitched true s) hI rfl hc h

theorem opPowerOn_outcomes {s s' : State} {ucb : CbArg} {r : Result} (hinv : s.Inv)
    (h : opPowerOn ucb s = .next (r, s')) :
    (isInitialized s = false ∧ r = .invalidArgument ∧ s' = s) ∨
      (isInitialized s = true ∧ isPoweredOn s = true ∧ r = .invalidState ∧ s' = s) ∨
      (isInitialized s = true ∧ isPoweredOn s = false ∧
        ((r = .invalidArgument ∧ ucb = .supplied ∧ ∃ m, m < s.ctx.count.toNat ∧
            FailsFirstAt .update (powerSwitched true s) m ∧ s' = walked .update (m + 1) (powerSwitched true s)) ∨
          (r = .success ∧ s.ctx.iteration ≠ iterationMax ∧
            s' = counted (transmitted (walked .update (requests ucb s.ctx.count) (powerSwitched true s)))))) := by
  cases hI : isInitialized s
  · simp [opPowerOn, unpoweredCheck, hI, ret] at h
    simp [h]
  · cases hP : isPoweredOn s
    · exact .inr (.inr ⟨rfl, rfl, opPowerOn_off_outcomes hI hP (hinv.countOk hI) h⟩)
    · simp [opPowerOn, unpoweredCheck, hI, hP, ret] at h
      simp [h]

/-- The state in which `INIT` has bound the pins and filled the buffer. -/
abbrev filled (b : Binding) (n : LedCount) (icb : CbArg) (s : State) : State :=
  walked .init (requests icb n) (bound b n (beforeBinding s))

theorem filled_isPoweredOn {s : State} (b : Binding) (n : LedCount) (icb : CbArg) (h : s.Inv) :
    isPoweredOn (filled b n icb s) = false := by
  show (beforeBinding s).ctx.status.poweredOn = false
  rw [beforeBinding_ctx h]
  rfl

theorem opInit_outcomes {s s' : State} {b : Binding} {n : LedCount} {icb ucb : CbArg} {pwr : Bool} {r : Result}
    (hinv : s.Inv) (h : opInit b n icb pwr ucb s = .next (r, s')) :
    (¬CountOk n ∧ r = .invalidArgument ∧ s' = s) ∨
      (CountOk n ∧
        ((r = .invalidArgument ∧ icb = .supplied ∧ ∃ m, m < n.toNat ∧
            s' = walked .init (m + 1) (bound b n (beforeBinding s))) ∨
          (pwr = false ∧ r = .success ∧ s' = filled b n icb s) ∨
          (pwr = true ∧ r = .success ∧
            s' = counted (transmitted (walked .update (requests ucb n) (powerSwitched true (filled b n icb s))))) ∨
          (pwr = true ∧ ucb = .supplied ∧ r = .invalidArgument ∧ ∃ m, m < n.toNat ∧
            s' = cleared (powerSwitched false
              (walked .update (m + 1) (powerSwitched true (filled b n icb s))))))) := by
  have hP := filled_isPoweredOn b n icb hinv
  rcases opInit_eq_next h with hbad | ⟨hok, hfail | hoff | ⟨hp, hr, hon⟩ | ⟨hp, hne, s₂, r₂, hon, hun⟩⟩
  · exact .inl hbad
  · exact .inr ⟨hok, .inl hfail⟩
  · exact .inr ⟨hok, .inr (.inl hoff)⟩
  · rcases opPowerOn_off_outcomes rfl hP hok hon with ⟨hr', _⟩ | ⟨_, _, hs⟩
    · cases hr'
    · exact .inr ⟨hok, .inr (.inr (.inl ⟨hp, hr, hs⟩))⟩
  · rcases opPowerOn_off_outcomes rfl hP hok hon with ⟨hr, hsup, m, hm, _, rfl⟩ | ⟨hr, _⟩
    · refine .inr ⟨hok, .inr (.inr (.inr ⟨hp, hsup, hr, m, hm, ?_⟩))⟩
      rcases opUninit_eq_next hun with ⟨hf, _⟩ | ⟨_, _, rfl⟩
      · cases hf
      · rfl
    · exact absurd hr hne

end Sys2Proof.Machine
end

