-- ==== Sys2Proof/Laws/TwoRuns.lean ====
section
/-! SUPPORT. Two runs side by side, packaged once: if two states agree on what the checks and the callbacks read, and
every piece keeps the agreement, then a command that completes from one completes from the other, with the same
result. -/

namespace Sys2Proof.Machine

/-- An agreement between two runs that every piece of `UPDATE` and `POWER_ON` keeps. -/
structure Agreement (R : State → State → Prop) : Prop where
  status : ∀ {s t}, R s t → s.ctx.status = t.ctx.status
  count : ∀ {s t}, R s t → s.ctx.count = t.ctx.count
  iteration : ∀ {s t}, R s t → s.ctx.iteration = t.ctx.iteration
  succeeds : ∀ {s t} port n, R s t → n ≤ s.ctx.count.toNat → AllSucceed port s n → AllSucceed port t n
  fails : ∀ {s t} port m, R s t → m < s.ctx.count.toNat → FailsFirstAt port s m → FailsFirstAt port t m
  power : ∀ {s t} on, R s t → R (powerSwitched on s) (powerSwitched on t)
  walk : ∀ {s t} port m, R s t → m ≤ s.ctx.count.toNat → R (walked port m s) (walked port m t)
  transmit : ∀ {s t}, R s t → s.ctx.count.toNat ≤ Config.maxLeds → R (transmitted s) (transmitted t)
  counted : ∀ {s t}, R s t → R (counted s) (counted t)
  respond : ∀ {s t} r, R s t → R (responded r s) (responded r t)

/-- An agreement that the pieces of `INIT` and `UNINIT` keep too. -/
structure FullAgreement (R : State → State → Prop) : Prop extends Agreement R where
  clear : ∀ {s t}, R s t → R (cleared s) (cleared t)
  bind : ∀ {s t} b n, R s t → R (bound b n s) (bound b n t)

theorem requests_le (cb : CbArg) (n : LedCount) : requests cb n ≤ n.toNat := by cases cb <;> simp [requests]

namespace Agreement
variable {R : State → State → Prop} (A : Agreement R)
include A

theorem initialized {s t : State} (h : R s t) : isInitialized t = isInitialized s := by
  rw [isInitialized_eq, isInitialized_eq, A.status h]

theorem poweredOn {s t : State} (h : R s t) : isPoweredOn t = isPoweredOn s := by
  rw [isPoweredOn_eq, isPoweredOn_eq, A.status h]

theorem callbackSucceeds {s t : State} {port : CbPort} {cb : CbArg} (h : R s t)
    (hc : CallbackSucceeds port cb s s.ctx.count) : CallbackSucceeds port cb t t.ctx.count := by
  intro hs
  rw [← A.count h]
  exact A.succeeds port _ h (Nat.le_refl _) (hc hs)

theorem opPowerOff {s t s' : State} {r : Result} (h : R s t) (ho : opPowerOff s = .next (r, s')) :
    ∃ t', opPowerOff t = .next (r, t') ∧ R s' t' := by
  rcases opPowerOff_eq_next ho with ⟨hc, rfl⟩ | ⟨hI, hP, rfl, rfl⟩
  · refine ⟨t, ?_, h⟩
    have : poweredCheck t = some r := by rw [← hc]; simp [poweredCheck, A.initialized h, A.poweredOn h]
    simp [Machine.opPowerOff, this, ret]
  · exact ⟨_, opPowerOff_on (by rw [A.initialized h, hI]) (by rw [A.poweredOn h, hP]), A.power _ h⟩

theorem opUpdate {s t s' : State} {ucb : CbArg} {r : Result} (h : R s t) (ho : opUpdate ucb s = .next (r, s')) :
    ∃ t', opUpdate ucb t = .next (r, t') ∧ R s' t' := by
  have hcount := A.count h
  rcases opUpdate_eq_next ho with ⟨hc, rfl⟩ | ⟨hI, hP, hrest⟩
  · refine ⟨t, ?_, h⟩
    have : poweredCheck t = some r := by rw [← hc]; simp [poweredCheck, A.initialized h, A.poweredOn h]
    simp [Machine.opUpdate, this, ret]
  · have hI' : isInitialized t = true := by rw [A.initialized h, hI]
    have hP' : isPoweredOn t = true := by rw [A.poweredOn h, hP]
    rcases hrest with ⟨rfl, rfl, m, hm, hf, rfl⟩ | ⟨rfl, hzero, rfl⟩ | ⟨rfl, hle, hit, hcb, rfl⟩
    · exact ⟨_, opUpdate_callbackFails hI' hP' (by rw [← hcount]; exact hm) (A.fails _ m h hm hf),
        A.walk _ _ h (by omega)⟩
    · refine ⟨t, ?_, h⟩
      have hzero' : t.ctx.count.toNat = 0 := by rw [← hcount]; exact hzero
      have hwalk : optionalWalk .update ucb t.ctx.count t = ret .success t := by
        cases ucb <;> simp [optionalWalk, hzero', callbackWalk]
      have hdata : opTransmit t = ret .invalidData t := by
        simp [opTransmit, transmitCheck, hI', hP', byteCount, hzero']
      rw [Machine.opUpdate, poweredCheck_eq_none.mpr ⟨hI', hP'⟩]
      simp only [hwalk, onSuccess_ret_success, hdata]
      rw [onSuccess_ret _ _ _ (by decide)]
      rfl
    · by_cases hpos : 1 ≤ s.ctx.count.toNat
      · refine ⟨_, ?_, A.counted (A.transmit (A.walk _ _ h (requests_le ucb _)) hle)⟩
        rw [opUpdate_callbackSucceeds hI' hP' (by rw [← hcount]; exact hpos) (by rw [← hcount]; exact hle)
          (A.callbackSucceeds h hcb), ← hcount]
        have hit' : t.ctx.iteration ≠ iterationMax := by rw [← A.iteration h]; exact hit
        exact countUpdate_below hit'
      · exfalso
        have hzero : s.ctx.count.toNat = 0 := by omega
        have hwalk : optionalWalk .update ucb s.ctx.count s = ret .success s := by
          cases ucb <;> simp [optionalWalk, hzero, callbackWalk]
        have hdata : opTransmit s = ret .invalidData s := by
          simp [opTransmit, transmitCheck, hI, hP, byteCount, hzero]
        rw [Machine.opUpdate, poweredCheck_eq_none.mpr ⟨hI, hP⟩] at ho
        simp only [hwalk, onSuccess_ret_success, hdata] at ho
        rw [onSuccess_ret _ _ _ (by decide)] at ho
        cases ho

theorem opPowerOn {s t s' : State} {ucb : CbArg} {r : Result} (h : R s t) (ho : opPowerOn ucb s = .next (r, s')) :
    ∃ t', opPowerOn ucb t = .next (r, t') ∧ R s' t' := by
  rcases opPowerOn_eq_next ho with ⟨hc, rfl⟩ | ⟨hI, hP, ho⟩
  · refine ⟨t, ?_, h⟩
    have : unpoweredCheck t = some r := by rw [← hc]; simp [unpoweredCheck, A.initialized h, A.poweredOn h]
    simp [Machine.opPowerOn, this, ret]
  · rw [opPowerOn_off ucb (by rw [A.initialized h, hI]) (by rw [A.poweredOn h, hP])]
    exact A.opUpdate (A.power _ h) ho

end Agreement

namespace FullAgreement
variable {R : State → State → Prop} (A : FullAgreement R)
include A

theorem opUninit {s t s' : State} {r : Result} (h : R s t) (ho : opUninit s = .next (r, s')) :
    ∃ t', opUninit t = .next (r, t') ∧ R s' t' := by
  rcases opUninit_eq_next ho with ⟨hI, rfl, rfl⟩ | ⟨hI, rfl, rfl⟩
  · exact ⟨t, by rw [Machine.opUninit, if_pos (by rw [A.initialized h, hI])]; rfl, h⟩
  · refine ⟨_, opUninit_initialized (by rw [A.initialized h, hI]), A.clear ?_⟩
    rw [A.poweredOn h]
    split
    · exact A.power _ h
    · exact h

theorem beforeBinding {s t : State} (h : R s t) : R (beforeBinding s) (beforeBinding t) := by
  have hl : lifecycle t = lifecycle s := by simp [lifecycle, A.initialized h, A.poweredOn h]
  unfold Machine.beforeBinding
  rw [hl]
  cases lifecycle s
  · exact h
  · exact A.clear h
  · exact A.clear (A.power _ h)

theorem optionalWalk {s t s' : State} {port : CbPort} {cb : CbArg} {r : Result} (h : R s t)
    (ho : optionalWalk port cb s.ctx.count s = .next (r, s')) (hle : s.ctx.count.toNat ≤ Config.maxLeds) :
    ∃ t', optionalWalk port cb t.ctx.count t = .next (r, t') ∧ R s' t' ∧ t'.ctx.count = s'.ctx.count := by
  have hcount := A.count h
  rcases optionalWalk_eq_next ho with ⟨rfl, hc, rfl⟩ | ⟨rfl, rfl, m, hm, hf, rfl⟩
  · refine ⟨_, optionalWalk_success port cb _ t (by rw [← hcount]; exact hle) (A.callbackSucceeds h hc), ?_, hcount.symm⟩
    rw [← hcount]
    exact A.walk _ _ h (requests_le cb _)
  · exact ⟨_, callbackWalk_failure port _ m t (by rw [← hcount]; exact hm) (A.fails _ m h hm hf),
      A.walk _ _ h (by omega), hcount.symm⟩

theorem opInit {s t s' : State} {b : Binding} {n : LedCount} {icb ucb : CbArg} {pwr : Bool} {r : Result} (h : R s t)
    (ho : opInit b n icb pwr ucb s = .next (r, s')) : ∃ t', opInit b n icb pwr ucb t = .next (r, t') ∧ R s' t' := by
  by_cases hok : CountOk n
  · rw [opInit_countOk s b n icb pwr ucb hok] at ho
    rw [opInit_countOk t b n icb pwr ucb hok]
    have hb := A.bind b n (A.beforeBinding h)
    rcases onSuccess_eq_next ho with ⟨s₂, hw, hp⟩ | ⟨hw, hr⟩
    · obtain ⟨t₂, hw', hR, _⟩ := A.optionalWalk hb hw hok.2
      rw [show Machine.optionalWalk .init icb n (bound b n (Machine.beforeBinding t)) = .next (.success, t₂) from hw']
      simp only [onSuccess, andThen_next, if_true]
      cases pwr
      · cases hp; exact ⟨t₂, rfl, hR⟩
      · simp only [if_true] at hp ⊢
        obtain ⟨⟨r₁, s₁⟩, hon, hrest⟩ := andThen_eq_next hp
        obtain ⟨t₁, hon', hR₁⟩ := A.opPowerOn hR hon
        rw [powerOnOrRollBack, hon', andThen_next]
        by_cases hr₁ : r₁ = .success
        · subst hr₁; cases hrest; exact ⟨t₁, rfl, hR₁⟩
        · simp only [hr₁, if_false] at hrest ⊢
          obtain ⟨⟨r₂, s₃⟩, hun, hlast⟩ := andThen_eq_next hrest
          obtain ⟨t₃, hun', hR₃⟩ := A.opUninit hR₁ hun
          cases hlast
          rw [hun']
          exact ⟨t₃, rfl, hR₃⟩
    · obtain ⟨t₂, hw', hR, _⟩ := A.optionalWalk hb hw hok.2
      rw [show Machine.optionalWalk .init icb n (bound b n (Machine.beforeBinding t)) = .next (r, t₂) from hw']
      simp only [onSuccess, andThen_next, if_neg hr]
      exact ⟨t₂, rfl, hR⟩
  · rcases opInit_eq_next ho with ⟨_, rfl, rfl⟩ | ⟨hok', _⟩
    · refine ⟨t, ?_, h⟩
      have hbad : n = 0 ∨ Config.maxLeds < n.toNat := by
        by_cases hn : n.toNat = 0
        · exact .inl (BitVec.eq_of_toNat_eq (by simpa using hn))
        · exact .inr (Nat.lt_of_not_le fun hle => hok ⟨Nat.one_le_iff_ne_zero.mpr hn, hle⟩)
      rw [Machine.opInit, if_pos hbad]
      rfl
    · exact absurd hok' hok

/-- Every command. -/
theorem exec {i : Instr} {s t s' : State} (h : R s t) (he : exec i s = .next s') :
    ∃ t', exec i t = .next t' ∧ R s' t' := by
  have finish : ∀ {op : State → OpOutcome}, (∀ {r s₁}, op s = .next (r, s₁) → ∃ t₁, op t = .next (r, t₁) ∧ R s₁ t₁) →
      respond (op s) = .next s' → ∃ t', respond (op t) = .next t' ∧ R s' t' := by
    intro op hop hr
    obtain ⟨r, s₁, ho, rfl⟩ := respond_eq_next hr
    obtain ⟨t₁, ht, hR⟩ := hop ho
    exact ⟨responded r t₁, by rw [ht]; rfl, A.respond r hR⟩
  cases i with
  | init b n icb pwr ucb => exact finish (A.opInit h) he
  | powerOn ucb => exact finish (A.opPowerOn h) he
  | powerOff => exact finish (A.opPowerOff h) he
  | update ucb => exact finish (A.opUpdate h) he
  | uninit => exact finish (A.opUninit h) he

end FullAgreement

end Sys2Proof.Machine
end

