-- ==== Sys2Proof/Tests/Slice0.lean ====
section
/-! SUPPORT. The model's own tests. Every expected value is copied from the spec's vectors (95_test_vectors.md and
96_test_vectors_commands.md, by their names) or worked out by hand from the rule named; and for every obligation with
hypotheses, a state and operands that meet them all. -/

namespace Sys2Proof.Machine.Tests

/-! ## Start states -/

/-- The registers listed hold the values given, every other one 0. -/
def registers (g : List (Nat × PortWord)) : Vector PortWord Config.numRegs := Vector.ofFn fun i => (g.lookup i.val).getD 0

/-- The slots listed from slot 0 on, every other one `(0,0,0)`. -/
def slots (cs : List Color) : Vector Color Config.maxLeds := Vector.ofFn fun i => cs.getD i.val ⟨0, 0, 0⟩

/-- The state `S=00 ... G=g IE=e`. -/
def unbound (g : List (Nat × PortWord) := []) (e : Bool := true) : State := State.resetWith e (registers g)

/-- The state `S=01` or `S=03`, `B=b`, `C=cs`, `IT=it`, `G=g`, `IE=e`; `COUNT` is the number of slots listed. -/
def initialized (p : Bool) (b : Binding) (cs : List Color) (it : Iteration) (g : List (Nat × PortWord))
    (e : Bool := true) : State :=
  { unbound g e with ctx := ⟨⟨true, p⟩, b, BitVec.ofNat 8 cs.length, slots cs, it⟩ }

/-- The binding `B0` of the vectors. -/
def b0 : Binding := ⟨1, 2, 0, 1⟩

/-- `InitializedOff` with one black LED. -/
def offState : State := initialized false b0 [⟨0, 0, 0⟩] 0 [(1, 0x03)]

/-- `InitializedOn` with one blue LED, `IT=1`. -/
def onState : State := initialized true b0 [⟨0, 0, 255⟩] 1 [(1, 0x03), (2, 0x01)]

/-- `InitializedOn` with two LEDs, as in V-U2 and V-U3. -/
def onState2 : State := initialized true b0 [⟨16, 32, 48⟩, ⟨17, 33, 49⟩] 1 [(1, 0x03), (2, 0x01)]

/-- `InitializedOn` with the buffer full: 64 LEDs. -/
def onState64 : State := initialized true b0 (List.replicate 64 ⟨165, 90, 15⟩) 1 [(1, 0x03), (2, 0x01)]

/-- The attached init callback answers so to the requests listed. -/
def withIcb (t : List (Color × LedCount × Color × CbResult)) (s : State) : State :=
  { s with icbTable := t.map fun (cin, i, cout, res) => (⟨cin, i⟩, ⟨cout, res⟩) }

/-- The attached update callback answers so to the requests listed. -/
def withUcb (t : List (Color × LedCount × Iteration × Color × CbResult)) (s : State) : State :=
  { s with ucbTable := t.map fun (cin, i, it, cout, res) => (⟨cin, i, it⟩, ⟨cout, res⟩) }

/-! ## What a test looks at -/

/-- A state in the compact notation of the vectors, and the events on its trace. -/
structure View where
  s : BitVec 8
  b : Binding
  c : List Color
  it : Iteration
  g : List (Nat × PortWord)
  ie : Bool
  events : List Event
deriving DecidableEq

def view (s : State) : View where
  s := s.ctx.status.word
  b := s.ctx.binding
  c := activeColors s.ctx
  it := s.ctx.iteration
  g := (s.gpio.toList.mapIdx fun i v => (i, v)).filter (·.2 ≠ 0)
  ie := s.ie
  events := s.trace

/-- The state a step leads to, if it leads to one. -/
def next? (o : Host.Outcome State Fault Refusal) : Option State :=
  match o with
  | .next s => some s
  | .fault _ => none
  | .refused _ => none

/-- The refusal a step ends in, if it ends in one. -/
def refusal? (o : Host.Outcome State Fault Refusal) : Option Refusal :=
  match o with
  | .refused r => some r
  | .next _ => none
  | .fault _ => none

/-- One step on a word. -/
def after (w : Nat) (s : State) : Option View := (next? (step (s.withFetchWord 32 w))).map view

/-- The state the vectors call the reset state, after the events given. -/
def unboundView (es : List Event) : View := ⟨0x00, ⟨0, 0, 0, 0⟩, [], 0, [], true, es⟩

/-- The events of a 0-bit on register 2 with patterns `hi` and `lo` (V-W1). -/
def zeroBit (hi lo : PortWord) : List Event :=
  [.wrPort 2 hi, .delay .phaseA, .wrPort 2 lo, .delay .phaseB, .wrPort 2 lo, .delay .phaseC]

/-- The events of a 1-bit (V-W2). -/
def oneBit (hi lo : PortWord) : List Event :=
  [.wrPort 2 hi, .delay .phaseA, .delay .phaseB, .wrPort 2 lo, .delay .phaseC]

/-- A frame of `n` zero bits and then `m` one bits, written out (V-T1). -/
def frame (hi lo : PortWord) (n m : Nat) (e : Bool) : List Event :=
  [.irqOff e] ++ (List.replicate n (zeroBit hi lo)).flatten ++ (List.replicate m (oneBit hi lo)).flatten
    ++ [.wrPort 2 lo, .delay .reset, .irqRestore e]

/-! ## Decoding: words written out from 30_encoding R91 -/

/-- V-D1, bit by bit: `PORT_SEL`, `DDR_SEL`, `RSV1`, `PWR_PIN`, `DATA_PIN`, `COUNT`, `RSV0`, `PWR UCB ICB`, `OP`. -/
theorem test_decode_init :
    decode 0b0010_0001_00_000_001_00000011_00_111_001 = .command (.init b0 3 .supplied true .supplied) := by decide
/-- V-D3. -/
theorem test_decode_init_all_ones :
    decode 0xFF3FFF39 = .command (.init ⟨15, 15, 7, 7⟩ 255 .supplied true .supplied) := by decide
/-- V-D6. -/
theorem test_decode_powerOn : decode 0b0000_0000_00_000_000_00000000_00_010_010 = .command (.powerOn .supplied) := by decide
/-- V-D7. -/
theorem test_decode_powerOff : decode 0b0000_0000_00_000_000_00000000_00_000_011 = .command .powerOff := by decide
/-- V-D8. -/
theorem test_decode_update : decode 0b0000_0000_00_000_000_00000000_00_000_100 = .command (.update .absent) := by decide
/-- V-D10. -/
theorem test_decode_uninit : decode 0b0000_0000_00_000_000_00000000_00_000_101 = .command .uninit := by decide
/-- V-D11, V-D12, V-D13. -/
theorem test_decode_reserved_opcodes :
    [0x00000000, 0x00000006, 0x00000007, 0xFFFFFFFF].map decode = List.replicate 4 (.illegal .reservedOpcode) := by decide
/-- V-D14 to V-D17. -/
theorem test_decode_reserved_fields :
    [0x00000041, 0x00000081, 0x21410101, 0x21810101].map decode = List.replicate 4 (.illegal .reservedField) := by decide
/-- V-D18 to V-D25. -/
theorem test_decode_unused_fields :
    [0x0000000A, 0x00000022, 0x00000102, 0x00000013, 0x00000024, 0x10000004, 0x00000015, 0x00010005].map decode
      = List.replicate 8 (.illegal .unusedField) := by decide

/-- 96_test_vectors_commands V-I7. -/
theorem test_encode_init : encode (.init ⟨3, 4, 5, 6⟩ 2 .absent false .absent) = 0x432E0201 := by decide
/-- V-D9. -/
theorem test_encode_update : encode (.update .supplied) = 0x00000014 := by decide
/-- The textual form of V-D1 (R100; P1 of 96_test_vectors_commands). -/
theorem test_text_init :
    (Instr.init b0 1 .supplied true .supplied).text =
      ["INIT", "ddr=1", "port=2", "pwr_pin=0", "data_pin=1", "count=1", "icb", "pwr_on", "ucb"] := by decide
theorem test_text_update : (Instr.update .supplied).text = ["UPDATE", "ucb"] := by decide

/-! ## Well-formedness: one ill-formed term for each check, refused -/

theorem test_wf_reserved_opcode : (Fields.ofOp 6).wf = false := by decide
theorem test_wf_reserved_field_rsv0 : ({ Fields.ofOp 1 with rsv0 := 1 } : Fields).wf = false := by decide
theorem test_wf_reserved_field_rsv1 : ({ Fields.ofOp 3 with rsv1 := 2 } : Fields).wf = false := by decide
theorem test_wf_unused_operand : ({ Fields.ofOp 2 with pwr := true } : Fields).wf = false := by decide
theorem test_wf_unused_ucb : ({ Fields.ofOp 5 with ucb := true } : Fields).wf = false := by decide
theorem test_wf_accepts : ({ Fields.ofOp 4 with ucb := true } : Fields).wf = true := by decide

/-! ## One step of each command -/

/-- V-I4: the direction register is read-modify-write, the output register is overwritten. -/
theorem test_init_registers : after 0x21010101 (unbound [(1, 0xF0), (2, 0xFF)]) = some
    ⟨0x01, b0, [⟨0, 0, 0⟩], 0, [(1, 0xF3)], true, [.wrDdr 1 0xF3, .wrPort 2 0x00, .resp .success]⟩ := by decide +kernel

/-- V-I6: the power-on inside `INIT` fails, and is rolled back. -/
theorem test_init_rollback : after 0x21010131 (withUcb [(⟨0, 0, 0⟩, 0, 0, ⟨5, 5, 5⟩, .invalidArgument)] unbound) = some
    (unboundView [.wrDdr 1 0x03, .wrPort 2 0x00, .wrPort 2 0x01, .delay .settle,
      .cbUpdate 0 0 ⟨0, 0, 0⟩ ⟨5, 5, 5⟩ .invalidArgument, .wrPort 2 0x00, .delay .settle, .wrDdr 1 0x00, .wrPort 2 0x00,
      .resp .invalidArgument]) := by decide +kernel

/-- V-PON2: a callback that fails at index 1, no rollback. -/
theorem test_powerOn_no_rollback :
    after 0x00000012 (withUcb [(⟨0, 0, 0⟩, 0, 0, ⟨7, 7, 7⟩, .success), (⟨0, 0, 0⟩, 1, 0, ⟨0, 0, 0⟩, .invalidArgument)]
      (initialized false b0 [⟨0, 0, 0⟩, ⟨0, 0, 0⟩] 0 [(1, 0x03)])) = some
    ⟨0x03, b0, [⟨7, 7, 7⟩, ⟨0, 0, 0⟩], 0, [(1, 0x03), (2, 0x01)], true,
      [.wrPort 2 0x01, .delay .settle, .cbUpdate 0 0 ⟨0, 0, 0⟩ ⟨7, 7, 7⟩ .success,
        .cbUpdate 1 0 ⟨0, 0, 0⟩ ⟨0, 0, 0⟩ .invalidArgument, .resp .invalidArgument]⟩ := by decide +kernel

/-- V-PON3: power pin 3; other bits of the output register are kept. -/
theorem test_powerOn_pin : after 0x00000002 (initialized false ⟨1, 2, 3, 1⟩ [⟨0, 0, 0⟩] 0 [(1, 0x0A)]) = some
    ⟨0x03, ⟨1, 2, 3, 1⟩, [⟨0, 0, 0⟩], 1, [(1, 0x0A), (2, 0x08)], true,
      [.wrPort 2 0x08, .delay .settle] ++ frame 0x0A 0x08 24 0 true ++ [.resp .success]⟩ := by decide +kernel

/-- V-POF3, command 1. -/
theorem test_powerOff : after 0x00000003 onState = some
    ⟨0x01, b0, [⟨0, 0, 255⟩], 1, [(1, 0x03)], true, [.wrPort 2 0x00, .delay .settle, .resp .success]⟩ := by decide +kernel

/-- V-POF2, command 1. -/
theorem test_powerOff_when_off : after 0x00000003 offState = some
    ⟨0x01, b0, [⟨0, 0, 0⟩], 0, [(1, 0x03)], true, [.resp .invalidState]⟩ := by decide +kernel

/-- V-U1, command 1, the frame of V-T1. -/
theorem test_update_frame : after 0x00000004 onState = some
    ⟨0x03, b0, [⟨0, 0, 255⟩], 2, [(1, 0x03), (2, 0x01)], true, frame 0x03 0x01 16 8 true ++ [.resp .success]⟩ := by
  decide +kernel

/-- V-U3, command 1: the callback fails at index 1. -/
theorem test_update_callback_fails :
    after 0x00000014 (withUcb [(⟨16, 32, 48⟩, 0, 1, ⟨7, 7, 7⟩, .success),
      (⟨17, 33, 49⟩, 1, 1, ⟨17, 33, 49⟩, .invalidArgument)] onState2) = some
    ⟨0x03, b0, [⟨7, 7, 7⟩, ⟨17, 33, 49⟩], 1, [(1, 0x03), (2, 0x01)], true,
      [.cbUpdate 0 1 ⟨16, 32, 48⟩ ⟨7, 7, 7⟩ .success, .cbUpdate 1 1 ⟨17, 33, 49⟩ ⟨17, 33, 49⟩ .invalidArgument,
        .resp .invalidArgument]⟩ := by decide +kernel

/-- V-UN1, command 1. -/
theorem test_uninit : after 0x00000005 onState = some
    (unboundView [.wrPort 2 0x00, .delay .settle, .wrDdr 1 0x00, .wrPort 2 0x00, .resp .success]) := by decide +kernel

/-- V-UN2: whole registers are cleared. -/
theorem test_uninit_whole_registers : after 0x00000005 (initialized false b0 [⟨0, 0, 0⟩] 0 [(1, 0xF3)]) = some
    (unboundView [.wrDdr 1 0x00, .wrPort 2 0x00, .resp .success]) := by decide +kernel

/-- V-D11 on a live context: only the response. -/
theorem test_illegal_word : after 0x00000000 onState = some
    ⟨0x03, b0, [⟨0, 0, 255⟩], 1, [(1, 0x03), (2, 0x01)], true, [.resp .invalidArgument]⟩ := by decide +kernel

/-- V-U6, both halves. -/
theorem test_update_maximum :
    refusal? (step (({ onState with ctx := { onState.ctx with iteration := 0xFFFFFFFF } }).withFetchWord 32 4)) =
      some .iterationAtMaximum ∧
    (after 4 { onState with ctx := { onState.ctx with iteration := 0xFFFFFFFE } }).map (·.it) = some 0xFFFFFFFF := by
  decide +kernel

/-! ## The encoder -/

/-- V-W3: byte `0xA5`. -/
theorem test_pulses_of_a_byte : byteEvents 2 0x03 0x01 0xA5 =
    oneBit 3 1 ++ zeroBit 3 1 ++ oneBit 3 1 ++ zeroBit 3 1 ++ zeroBit 3 1 ++ oneBit 3 1 ++ zeroBit 3 1 ++ oneBit 3 1 := by
  decide

/-- The state a successful `TRANSMIT` leaves. -/
def transmit? (s : State) : Option State :=
  next? (andThen (opTransmit s) fun rs => if rs.1 = .success then .next rs.2 else .refused .iterationAtMaximum)

/-- V-T1, its registers. -/
theorem test_transmit_registers :
    (transmit? onState).map (fun s => (s.patHi, s.patLo, s.savedIe, s.phase)) = some (0x03, 0x01, true, .idle) := by
  decide +kernel

/-- V-T1, its data-pin projection. -/
theorem test_transmit_wave : (transmit? onState).map (fun s => wave s.trace 2 1 false) = some
    ((List.replicate 16 [⟨true, [.phaseA]⟩, ⟨false, [.phaseB, .phaseC]⟩]).flatten
      ++ (List.replicate 7 [⟨true, [.phaseA, .phaseB]⟩, ⟨false, [.phaseC]⟩]).flatten
      ++ [⟨true, [.phaseA, .phaseB]⟩, ⟨false, [.phaseC, .reset]⟩]) := by decide +kernel

/-- V-T3, `N = 2`, all `(0,0,0)`. -/
theorem test_transmit_counts :
    (transmit? (initialized true b0 [⟨0, 0, 0⟩, ⟨0, 0, 0⟩] 1 [(2, 0x01)])).map (fun s =>
      (s.trace.length, (s.trace.filter (·.isPortWrite)).length, (s.trace.filter (·.isDelay)).length))
      = some (292, 145, 145) := by decide +kernel

/-- V-PS2: the data bit already 1 in the register. -/
theorem test_snapshot : (fun s : State => (s.patHi, s.patLo))
    (snapshot (initialized true b0 [⟨0, 0, 255⟩] 1 [(2, 0xA7)])) = (0xA7, 0xA5) := by decide

/-- V-T6, steps 1 to 4. -/
theorem test_timer_steps :
    ([1, 2, 3, 4].map fun n => (next? (timerRun n onState)).map fun s => (s.k, s.j, s.phase, s.trace)) =
      [some (0, 7, .highA, [.irqOff true, .wrPort 2 3, .delay .phaseA]),
        some (0, 7, .winB, [.irqOff true, .wrPort 2 3, .delay .phaseA, .wrPort 2 1, .delay .phaseB]),
        some (0, 7, .lowC, [.irqOff true] ++ zeroBit 3 1),
        some (0, 6, .highA, [.irqOff true] ++ zeroBit 3 1 ++ [.wrPort 2 3, .delay .phaseA])] := by decide +kernel

/-- V-T6, steps 73 and 74, and the start of byte 1 by R190: bit 8 starts at step `1 + 3 * 8 = 25` (log 11). -/
theorem test_timer_last_steps :
    ([25, 73, 74].map fun n => (next? (timerRun n onState)).map fun s => (s.k, s.j, s.phase)) =
      [some (1, 7, .highA), some (2, 0, .reset), some (2, 0, .idle)] := by decide +kernel

/-- R99 and R98: the codes. -/
theorem test_codes :
    [Result.success, .invalidArgument, .invalidData, .invalidState].map Result.code = [0, 1, 2, 3] ∧
      [CbResult.success, .invalidArgument].map CbResult.bit = [0, 1] := by decide

/-- D30: the host reads the context between commands, and not while the block is busy. -/
theorem test_hostView : hostView onState = some onState.ctx ∧ hostView { onState with phase := .winB } = none := by
  decide +kernel

/-! ## Witnesses: the hypotheses of the obligations can be met -/

/-- A check that a walk meets no failing answer. -/
def allSucceed? (port : CbPort) (s : State) (n : Nat) : Bool :=
  (List.range n).all fun i => (slot s.ctx i).all fun cin => (answerAt port s i cin).res = .success

theorem allSucceed_of_check {port : CbPort} {s : State} {n : Nat} (h : allSucceed? port s n = true) :
    AllSucceed port s n := by
  intro i cin hi hs
  have := List.all_eq_true.mp h i (List.mem_range.mpr hi)
  simpa [hs] using this

/-- The invariant, checked. -/
theorem inv_of_check {s : State}
    (h : ((isPoweredOn s → isInitialized s) ∧ (isInitialized s → 1 ≤ s.ctx.count.toNat) ∧
      s.ctx.count.toNat ≤ Config.maxLeds ∧ (isInitialized s = false → s.ctx = Ctx.zero) ∧
      (∀ i < Config.maxLeds, s.ctx.count.toNat ≤ i → slot s.ctx i = some ⟨0, 0, 0⟩) ∧ s.phase = .idle)) : s.Inv :=
  ⟨h.1, h.2.1, h.2.2.1, h.2.2.2.1, fun i h1 h2 => h.2.2.2.2.1 i h2 h1, h.2.2.2.2.2⟩

theorem unbound_inv : unbound.Inv := inv_of_check (by decide +kernel)
theorem offState_inv : offState.Inv := inv_of_check (by decide +kernel)
theorem onState_inv : onState.Inv := inv_of_check (by decide +kernel)
theorem onState64_inv : onState64.Inv := inv_of_check (by decide +kernel)

theorem exists_of_isSome {o : Host.Outcome State Fault Refusal} (h : (next? o).isSome = true) : ∃ s', o = .next s' := by
  cases o with
  | next s => exact ⟨s, rfl⟩
  | fault => cases h
  | refused => cases h

/-- `EachCommandHasOneWord`, and the last clause of `EveryWordIsOneCommandOrIllegal`. -/
theorem witness_word : (∃ i, decode 0xFF3FFF39 = .command i) ∧ ∃ r ∈ opcodeRows, r.selects 0xFF3FFF39 = true :=
  ⟨⟨_, test_decode_init_all_ones⟩, _, List.mem_cons_self, by decide⟩

/-- `OperandsAreReadFromTheirBits`, each clause at its largest operands. -/
theorem witness_OperandsAreReadFromTheirBits :
    0xFF3FFF39#32 &&& 0x00C000C7#32 = 0x00000001#32 ∧ 0x00000012#32 &&& 0xFFFFFFEF#32 = 0x00000002#32 ∧
      0x00000014#32 &&& 0xFFFFFFEF#32 = 0x00000004#32 := by decide

/-- `StepPerformsTheDecodedCommand`, both clauses. -/
theorem witness_StepPerformsTheDecodedCommand :
    ((onState.withFetchWord 32 3).phase = .idle ∧ (onState.withFetchWord 32 3).inputs = .command 3 :: [] ∧
      decode 3 = .command .powerOff) ∧ decodeTableWord 32 3 = some .powerOff := by decide

/-- `IllegalWordOnlyResponds`, both clauses, the second at the counts 0 and 255. -/
theorem witness_IllegalWordOnlyResponds :
    ((onState.withFetchWord 32 0).phase = .idle ∧ (onState.withFetchWord 32 0).inputs = .command 0 :: [] ∧
      ∀ r ∈ opcodeRows, r.selects 0 = false) ∧
    (0x00000001#32 &&& 0x00C000C7#32 = 0x00000001#32 ∧ (0x00000001#32).extractLsb' 8 8 = 0) ∧
    (0x0000FF01#32 &&& 0x00C000C7#32 = 0x00000001#32 ∧ (0x0000FF01#32).extractLsb' 8 8 = 255) := by decide

/-- `IdleBlockWaitsAndHostSetsIe`, both clauses; V-IE1's host setting. -/
theorem witness_IdleBlockWaitsAndHostSetsIe :
    (onState.phase = .idle ∧ onState.inputs = []) ∧
      (next? (step { onState with inputs := [.setIe false] })).map (·.ie) = some false := by decide +kernel

/-- `BusyBlockIgnoresTheOutside`, in each of the four busy phases. -/
theorem witness_BusyBlockIgnoresTheOutside : ([1, 2, 3, 73].map fun n => (next? (timerRun n onState)).map fun s =>
    (s.phase, (next? (step s)).isSome)) =
      [some (.highA, true), some (.winB, true), some (.lowC, true), some (.reset, true)] := by decide +kernel

/-- `PowerOffDefinition`, `PowerOnDefinition`, `UpdateRefusals`, `UninitDefinition`, `UninitLeavesTheBankUndriven`, and the
first clause of `TransmitDefinition`: the three lifecycle states. -/
theorem witness_lifecycle :
    isInitialized unbound = false ∧ (isInitialized offState = true ∧ isPoweredOn offState = false) ∧
      (isInitialized onState = true ∧ isPoweredOn onState = true) := by decide

/-- `InitRefusesABadCount`, both clauses, at each boundary. -/
theorem witness_InitRefusesABadCount :
    ((0 : LedCount).toNat = 0 ∧ 64 < (65 : LedCount).toNat ∧ 64 < (255 : LedCount).toNat) ∧
      (1 ≤ (1 : LedCount).toNat ∧ (64 : LedCount).toNat ≤ 64) := by decide

/-- The state of V-S1, with both callbacks attached. -/
def scenario : State :=
  withUcb [(⟨0, 0, 255⟩, 0, 0, ⟨0, 0, 255⟩, .success)] (withIcb [(⟨0, 0, 0⟩, 0, ⟨0, 0, 255⟩, .success)] unbound)

/-- `InitResult`, with a callback at the least count and without one at the largest. -/
theorem witness_InitResult :
    (CountOk 1 ∧ CallbackSucceeds .init .supplied (bound b0 1 (beforeBinding scenario)) 1) ∧
      (CountOk 64 ∧ CallbackSucceeds .init .absent (bound b0 64 (beforeBinding onState)) 64) :=
  ⟨⟨by decide, fun _ => allSucceed_of_check (by decide +kernel)⟩, by decide, fun h => by cases h⟩

/-- `InitCallbackFailure`: V-I5. -/
theorem witness_InitCallbackFailure :
    CountOk 3 ∧ 1 < (3 : LedCount).toNat ∧ FailsFirstAt .init (bound b0 3 (beforeBinding
      (withIcb [(⟨0, 0, 0⟩, 0, ⟨1, 2, 3⟩, .success), (⟨0, 0, 0⟩, 1, ⟨9, 9, 9⟩, .invalidArgument)] unbound))) 1 :=
  ⟨by decide, by decide, allSucceed_of_check (by decide +kernel), ⟨0, 0, 0⟩, by decide +kernel, by decide +kernel⟩

/-- `InitWithPowerOnResult`: V-S1, command 1. -/
theorem witness_InitWithPowerOnResult :
    CountOk 1 ∧ (isInitialized scenario = false → isPoweredOn scenario = false) ∧
      (beforeBinding scenario).ctx.iteration ≠ BitVec.allOnes 32 ∧
      CallbackSucceeds .init .supplied (bound b0 1 (beforeBinding scenario)) 1 ∧
      CallbackSucceeds .update .supplied
        (powerSwitched true (walked .init (requests .supplied 1) (bound b0 1 (beforeBinding scenario)))) 1 :=
  ⟨by decide, by decide, by decide, fun _ => allSucceed_of_check (by decide +kernel),
    fun _ => allSucceed_of_check (by decide +kernel)⟩

/-- V-S1, command 1, whole. -/
theorem test_scenario : after 0x21010139 scenario = some
    ⟨0x03, b0, [⟨0, 0, 255⟩], 1, [(1, 0x03), (2, 0x01)], true,
      [.wrDdr 1 0x03, .wrPort 2 0x00, .cbInit 0 ⟨0, 0, 0⟩ ⟨0, 0, 255⟩ .success, .wrPort 2 0x01, .delay .settle,
        .cbUpdate 0 0 ⟨0, 0, 255⟩ ⟨0, 0, 255⟩ .success] ++ frame 0x03 0x01 16 8 true ++ [.resp .success]⟩ := by
  decide +kernel

/-- The state of V-I6: the update callback fails at once. -/
def failing : State := withUcb [(⟨0, 0, 0⟩, 0, 0, ⟨5, 5, 5⟩, .invalidArgument)] unbound

/-- `InitRollsBackAFailedPowerOn`: V-I6. -/
theorem witness_InitRollsBackAFailedPowerOn :
    CountOk 1 ∧ (isInitialized failing = false → isPoweredOn failing = false) ∧ 0 < (1 : LedCount).toNat ∧
      CallbackSucceeds .init .absent (bound b0 1 (beforeBinding failing)) 1 ∧
      FailsFirstAt .update (powerSwitched true (walked .init (requests .absent 1) (bound b0 1 (beforeBinding failing)))) 0 :=
  ⟨by decide, by decide, by decide, (fun h => by cases h), allSucceed_of_check (by decide +kernel), ⟨0, 0, 0⟩,
    by decide +kernel, by decide +kernel⟩

/-- `ReinitIsUninitThenInit`: V-I7. -/
theorem witness_ReinitIsUninitThenInit : isInitialized onState = true ∧ CountOk 2 := by decide

/-- `UpdateResult`, with a callback (V-S1, command 2), and at the largest count and largest iteration. -/
theorem witness_UpdateResult :
    (isInitialized onState = true ∧ isPoweredOn onState = true ∧ CountOk onState.ctx.count ∧
      onState.ctx.iteration ≠ BitVec.allOnes 32 ∧ CallbackSucceeds .update .supplied
        (withUcb [(⟨0, 0, 255⟩, 0, 1, ⟨0, 255, 0⟩, .success)] onState) onState.ctx.count) ∧
    (CountOk onState64.ctx.count ∧ 0xFFFFFFFE#32 ≠ BitVec.allOnes 32) :=
  ⟨⟨by decide, by decide, by decide, by decide, fun _ => allSucceed_of_check (by decide +kernel)⟩, by decide, by decide⟩

/-- `UpdateCallbackFailure`: V-U3. -/
theorem witness_UpdateCallbackFailure :
    isInitialized onState2 = true ∧ isPoweredOn onState2 = true ∧ CountOk onState2.ctx.count ∧
      1 < onState2.ctx.count.toNat ∧ FailsFirstAt .update (withUcb [(⟨16, 32, 48⟩, 0, 1, ⟨7, 7, 7⟩, .success),
        (⟨17, 33, 49⟩, 1, 1, ⟨17, 33, 49⟩, .invalidArgument)] onState2) 1 :=
  ⟨by decide, by decide, by decide, by decide, allSucceed_of_check (by decide +kernel), ⟨17, 33, 49⟩, by decide +kernel,
    by decide +kernel⟩

/-- `PowerOnCallbackFailure`: as V-PON2, with one LED. -/
theorem witness_PowerOnCallbackFailure :
    isInitialized offState = true ∧ isPoweredOn offState = false ∧ CountOk offState.ctx.count ∧
      0 < offState.ctx.count.toNat ∧ FailsFirstAt .update
        (powerSwitched true (withUcb [(⟨0, 0, 0⟩, 0, 0, ⟨5, 5, 5⟩, .invalidArgument)] offState)) 0 :=
  ⟨by decide, by decide, by decide, by decide, allSucceed_of_check (by decide +kernel), ⟨0, 0, 0⟩, by decide +kernel,
    by decide +kernel⟩

/-- `PowerOnResult`: as V-PON1, with one LED and a callback. -/
theorem witness_PowerOnResult :
    isInitialized offState = true ∧ isPoweredOn offState = false ∧ CountOk offState.ctx.count ∧
      offState.ctx.iteration ≠ BitVec.allOnes 32 ∧ CallbackSucceeds .update .supplied
        (powerSwitched true (withUcb [(⟨0, 0, 0⟩, 0, 0, ⟨0, 0, 255⟩, .success)] offState)) offState.ctx.count :=
  ⟨by decide, by decide, by decide, by decide, fun _ => allSucceed_of_check (by decide +kernel)⟩

/-- A state with the largest iteration value. -/
def atMaximum (s : State) : State := { s with ctx := { s.ctx with iteration := BitVec.allOnes 32 } }

/-- `UpdateAtTheMaximumIsRefused`, both clauses. -/
theorem witness_UpdateAtTheMaximumIsRefused :
    (isInitialized (atMaximum onState) = true ∧ CountOk (atMaximum onState).ctx.count ∧
      (atMaximum onState).ctx.iteration = BitVec.allOnes 32 ∧ isPoweredOn (atMaximum onState) = true ∧
      CallbackSucceeds .update .absent (atMaximum onState) (atMaximum onState).ctx.count) ∧
    (isInitialized (atMaximum offState) = true ∧ CountOk (atMaximum offState).ctx.count ∧
      (atMaximum offState).ctx.iteration = BitVec.allOnes 32 ∧ isPoweredOn (atMaximum offState) = false ∧
      CallbackSucceeds .update .absent (powerSwitched true (atMaximum offState)) (atMaximum offState).ctx.count) :=
  ⟨⟨by decide, by decide, by decide, by decide, fun h => by cases h⟩,
    ⟨by decide, by decide, by decide, by decide, fun h => by cases h⟩⟩

/-- `EveryCommandCompletes`, and the invariants' premises: in each lifecycle state, and with the buffer full. -/
theorem witness_invariant :
    (unbound.Inv ∧ offState.Inv ∧ onState.Inv ∧ onState64.Inv) ∧ onState.ctx.iteration ≠ BitVec.allOnes 32 :=
  ⟨⟨unbound_inv, offState_inv, onState_inv, onState64_inv⟩, by decide⟩

/-- The second clause of `TransmitDefinition` (V-T4); the third and fourth are `witness_transmission`,
`witness_invariant`. -/
theorem witness_TransmitDefinition :
    let s := { onState with ctx := { onState.ctx with count := 0 } }
    isInitialized s = true ∧ isPoweredOn s = true ∧ s.ctx.count = 0 := by decide

/-- `BitTimerAgreesWithTransmit`, `TransmitWaveIsTheFrame`, `FrameBitsByPosition`, `TransmitEventCounts`,
`CriticalSectionShape`, `TransmitKeepsOtherPins`: at the least and the largest count. -/
theorem witness_transmission : ∀ s ∈ [onState, onState64],
    s.phase = .idle ∧ isInitialized s = true ∧ isPoweredOn s = true ∧ CountOk s.ctx.count ∧
      pinBit (boundPort s) s.ctx.binding.data = false := by decide +kernel

/-- The frames and the statements "what no rule reads": each kind of command completes somewhere. -/
theorem witness_completes :
    (∃ s', exec (.init b0 1 .absent false .absent) unbound = .next s') ∧ (∃ s', exec (.powerOn .absent) offState = .next s') ∧
      (∃ s', exec .powerOff onState = .next s') ∧ (∃ s', exec (.update .absent) onState = .next s') ∧
      ∃ s', exec .uninit onState = .next s' :=
  ⟨exists_of_isSome (by decide +kernel), exists_of_isSome (by decide +kernel), exists_of_isSome (by decide +kernel),
    exists_of_isSome (by decide +kernel), exists_of_isSome (by decide +kernel)⟩

/-- `OnlyBoundRegistersAreWritten`: a command that completes, and a register it may not write. -/
theorem witness_OnlyBoundRegistersAreWritten :
    ((∃ s', exec .powerOff onState = .next s') ∧ ¬mayWrite .powerOff onState 1) ∧
      ((∃ s', exec (.init b0 1 .absent false .absent) unbound = .next s') ∧
        ¬mayWrite (.init b0 1 .absent false .absent) unbound 0) := by
  refine ⟨⟨witness_completes.2.2.1, ?_⟩, witness_completes.1, ?_⟩ <;>
    simp [mayWrite, onState, initialized, unbound, State.resetWith, Ctx.zero, isInitialized, b0]

/-- `InvalidStateHasNoSideEffect` and `UnreachableErrorCodes`: S3. -/
theorem witness_InvalidStateHasNoSideEffect :
    onState.Inv ∧ Answered (.powerOn .absent) onState (responded .invalidState onState) [] .invalidState :=
  ⟨onState_inv, rfl, rfl, by simp⟩

/-- `IterationCountsSuccessfulUpdates`, each clause (V-U1, V-POF3, V-UN1, V-I1). -/
theorem witness_IterationCountsSuccessfulUpdates :
    (Answered (.update .absent) unbound (responded .invalidArgument unbound) [] .invalidArgument) ∧
      (Answered .powerOff onState (responded .success (powerSwitched false onState)) [.wrPort 2 0, .delay .settle] .success) ∧
      (Answered .uninit offState (responded .success (cleared offState)) [.wrDdr 1 0, .wrPort 2 0] .success) ∧
      Answered (.init b0 1 .absent false .absent) unbound (responded .success (bound b0 1 unbound))
        [.wrDdr 1 3, .wrPort 2 0] .success :=
  ⟨⟨rfl, rfl, by simp⟩, ⟨rfl, rfl, by simp⟩, ⟨rfl, rfl, by simp⟩, ⟨rfl, rfl, by simp⟩⟩

/-- The success clause of `IterationCountsSuccessfulUpdates`: V-U1. -/
theorem witness_successful_update : ∃ s', exec (.update .absent) onState = .next (responded .success s') := by
  refine ⟨counted (transmitted (walked .update (requests .absent onState.ctx.count) onState)), ?_⟩
  show respond (opUpdate .absent onState) = _
  rw [opUpdate_callbackSucceeds rfl rfl (by decide) (by decide) (fun h => by cases h), countUpdate_below (by decide)]
  rfl

/-- `StepKeepsTheInvariants` and `StepKeepsLinesAtRest`: a well-formed state with its lines at rest, and a step. -/
theorem witness_StepKeepsLinesAtRest :
    onState.Inv ∧ onState.LinesAtRest ∧ ∃ s', step onState = .next s' :=
  ⟨onState_inv, fun _ _ _ => by decide +kernel, _, rfl⟩

/-- `InitThenUninitRestores`: V-I1, S2. -/
theorem witness_InitThenUninitRestores :
    unbound.Inv ∧ isInitialized unbound = false ∧
      ∃ s₁, exec (.init b0 2 .absent false .absent) unbound = .next s₁ ∧ isInitialized s₁ = true :=
  ⟨unbound_inv, rfl, responded .success (bound b0 2 unbound), rfl, rfl⟩

/-- `PowerCycleResendsTheColours`: V-POF3. -/
theorem witness_PowerCycleResendsTheColours :
    onState.Inv ∧ isPoweredOn onState = true ∧ onState.ctx.iteration ≠ BitVec.allOnes 32 :=
  ⟨onState_inv, by decide, by decide⟩

/-- `TransientsAreReadByNoCommand`: two states that differ in every transient register. -/
theorem witness_TransientsAreReadByNoCommand :
    SameButTransients onState { onState with patHi := 1, patLo := 2, savedIe := true, k := 3, j := 4, i := 5 } ∧
      ∃ s', exec .powerOff onState = .next s' :=
  ⟨⟨rfl, rfl, rfl, rfl, rfl, rfl, rfl, rfl⟩, witness_completes.2.2.1⟩

/-- `UpdateAndPowerOnReadNoUnusedSlot`: another colour in every slot but slot 0. -/
theorem witness_UpdateAndPowerOnReadNoUnusedSlot :
    onState.ctx.count.toNat ≤ Config.maxLeds ∧
      (∀ j < onState.ctx.count.toNat, (slots [⟨0, 0, 255⟩, ⟨9, 9, 9⟩])[j]? = onState.ctx.colors[j]?) ∧
      ∃ s', exec (.update .absent) onState = .next s' :=
  ⟨by decide, by decide +kernel, witness_completes.2.2.2.1⟩

end Sys2Proof.Machine.Tests
end

/-! ## Steps of the idle and of the busy block (00_scope R12, 40_device_ops R130, 41_protocol_encoder R192) -/

namespace Sys2Proof.Machine

/-- An idle block performs the host's next word (R12). -/
theorem step_of_command {s : State} {w : CmdWord} {rest : List HostInput} (hidle : s.phase = .idle)
    (hnext : s.inputs = .command w :: rest) : step s = performWord w { s with inputs := rest } := by
  simp only [step, takeInput, hidle, hnext]

theorem performWord_of_command {w : CmdWord} {i : Instr} (h : decode w = .command i) (s : State) :
    performWord w s = exec i s := by
  simp only [performWord, h]

theorem decodeTableWord_eq_some_iff (nbits w : Nat) (i : Instr) :
    decodeTableWord nbits w = some i ↔ decode (tableWord nbits w) = .command i := by
  unfold decodeTableWord
  cases decode (tableWord nbits w) <;> simp [Decoded.instr?]

/-- Settles O7: an idle step takes the word, and `performWord` of a word that decodes is `exec`. -/
theorem stepPerformsTheDecodedCommand : Obligations.StepPerformsTheDecodedCommand := by
  refine ⟨fun s w rest i hidle hnext hw => ?_, fun s nbits w i hw => ?_⟩
  · rw [step_of_command hidle hnext, performWord_of_command hw]
  · have hdecode := (decodeTableWord_eq_some_iff nbits w i).mp hw
    calc step (s.withFetchWord nbits w)
        = performWord (tableWord nbits w) { s with phase := .idle } := step_of_command rfl rfl
      _ = exec i { s with phase := .idle } := performWord_of_command hdecode _

/-- A step of a busy block is the bit-timer's (R186). -/
theorem step_of_busy {s : State} (hbusy : s.phase ≠ .idle) : step s = timerStep s := by
  unfold step
  cases hp : s.phase with
  | idle => exact absurd hp hbusy
  | highA | winB | lowC | reset => rfl

/-- The same block with other things outside it: what the host offers, and what the attached callbacks answer. -/
def withOutside (q : List HostInput) (t : List (InitRequest × CbAnswer)) (u : List (UpdateRequest × CbAnswer))
    (s : State) : State :=
  { s with inputs := q, icbTable := t, ucbTable := u }

section Outside
variable (q : List HostInput) (t : List (InitRequest × CbAnswer)) (u : List (UpdateRequest × CbAnswer))

theorem window_withOutside (s : State) :
    window (withOutside q t u s) = andThen (window s) fun s' => .next (withOutside q t u s') := by
  have hbit : currentBit (withOutside q t u s) = currentBit s := rfl
  unfold window
  rw [hbit]
  cases currentBit s with
  | none => rfl
  | some v => cases v <;> rfl

theorem timerNextBit_withOutside (s : State) :
    timerNextBit (withOutside q t u s) = withOutside q t u (timerNextBit s) := by
  have hbytes : byteCount (withOutside q t u s).ctx = byteCount s.ctx := rfl
  have hk : (withOutside q t u s).k = s.k := rfl
  have hj : (withOutside q t u s).j = s.j := rfl
  simp only [timerNextBit, hbytes, hk, hj]
  split
  · rfl
  · split <;> rfl

/-- No transition of the bit-timer reads or changes what is outside the block (R192, R198). -/
theorem timerStep_withOutside (s : State) :
    timerStep (withOutside q t u s) = andThen (timerStep s) fun s' => .next (withOutside q t u s') := by
  have hphase : (withOutside q t u s).phase = s.phase := rfl
  unfold timerStep
  rw [hphase]
  cases s.phase with
  | idle =>
    have hcheck : transmitCheck (withOutside q t u s) = transmitCheck s := rfl
    simp only [hcheck, andThen_next]
    split <;> rfl
  | highA => exact window_withOutside q t u s
  | winB => rfl
  | lowC => exact congrArg _ (timerNextBit_withOutside q t u s)
  | reset => rfl

end Outside

/-- The bit-timer takes no host input: putting the present inputs in place of themselves changes nothing. -/
theorem timerStep_inputs {s s' : State} (h : timerStep s = .next s') : s'.inputs = s.inputs := by
  have hsame : timerStep s = .next (withOutside s.inputs s.icbTable s.ucbTable s') := by
    have := timerStep_withOutside s.inputs s.icbTable s.ucbTable s
    rwa [h] at this
  have hs : s' = withOutside s.inputs s.icbTable s.ucbTable s' := by
    rw [h] at hsame
    exact Host.Outcome.next.inj hsame
  rw [hs]
  rfl

/-- Settles O10: a busy step is the bit-timer's, which neither takes nor reads what is outside. -/
theorem busyBlockIgnoresTheOutside : Obligations.BusyBlockIgnoresTheOutside := by
  intro s s' q t u hbusy hstep
  rw [step_of_busy hbusy] at hstep
  have hbusy' : (withOutside q t u s).phase ≠ .idle := hbusy
  refine ⟨timerStep_inputs hstep, ?_⟩
  calc step (withOutside q t u s)
      = timerStep (withOutside q t u s) := step_of_busy hbusy'
    _ = .next (withOutside q t u s') := by rw [timerStep_withOutside, hstep]; rfl

end Sys2Proof.Machine

/-! ## Completion (00_scope R12, 70_reset_and_hazards R253) -/

namespace Sys2Proof.Machine

/-- An operation comes to its end with some result. -/
def Completes (o : OpOutcome) : Prop := ∃ r s', o = .next (r, s')

theorem completes_ret (r : Result) (s : State) : Completes (ret r s) := ⟨r, s, rfl⟩

/-- A command whose operation completes responds (R130). -/
theorem respond_of_completes {o : OpOutcome} (h : Completes o) : ∃ s', respond o = .next s' := by
  obtain ⟨r, s', rfl⟩ := h
  exact ⟨_, rfl⟩

theorem opPowerOff_completes (s : State) : Completes (opPowerOff s) := by
  unfold opPowerOff
  split <;> exact completes_ret _ _

theorem opUninit_completes (s : State) : Completes (opUninit s) := by
  cases hI : isInitialized s
  · rw [opUninit, if_pos hI]
    exact completes_ret _ _
  · rw [opUninit_initialized hI]
    exact completes_ret _ _

/-- `UPDATE` completes below the largest iteration: refused by a check, stopped by its callback, or counted (R143). -/
theorem opUpdate_completes {s : State} (ucb : CbArg) (hcount : isInitialized s = true → CountOk s.ctx.count)
    (hit : s.ctx.iteration ≠ iterationMax) : Completes (opUpdate ucb s) := by
  cases hc : poweredCheck s with
  | some r =>
    rw [opUpdate, hc]
    exact completes_ret _ _
  | none =>
    obtain ⟨hI, hP⟩ := poweredCheck_eq_none.mp hc
    obtain ⟨hpos, hle⟩ := hcount hI
    rcases optionalWalk_cases .update ucb s.ctx.count s hle with ⟨hcb, _⟩ | ⟨rfl, m, hm, hf, _⟩
    · rw [opUpdate_callbackSucceeds hI hP hpos hle hcb, countUpdate_below (by exact hit)]
      exact completes_ret _ _
    · rw [opUpdate_callbackFails hI hP hm hf]
      exact completes_ret _ _

theorem opPowerOn_completes {s : State} (ucb : CbArg) (hcount : isInitialized s = true → CountOk s.ctx.count)
    (hit : s.ctx.iteration ≠ iterationMax) : Completes (opPowerOn ucb s) := by
  cases hc : unpoweredCheck s with
  | some r =>
    rw [opPowerOn, hc]
    exact completes_ret _ _
  | none =>
    obtain ⟨hI, hP⟩ := unpoweredCheck_eq_none.mp hc
    rw [opPowerOn_off ucb hI hP]
    exact opUpdate_completes ucb hcount hit

/-- The power-on of `INIT` completes whether it succeeds or is rolled back (R136). -/
theorem powerOnOrRollBack_completes {s : State} {ucb : CbArg} (h : Completes (opPowerOn ucb s)) :
    Completes (powerOnOrRollBack ucb s) := by
  obtain ⟨r, s₁, hon⟩ := h
  rw [powerOnOrRollBack, hon, andThen_next]
  split
  · exact completes_ret _ _
  · obtain ⟨r₂, s₂, hun⟩ := opUninit_completes s₁
    exact ⟨r, s₂, by rw [hun]; rfl⟩

/-- The count check of `INIT` fails exactly at the counts that it does not accept (R132). -/
theorem initCheck_iff_not_countOk (n : LedCount) : (n = 0 ∨ Config.maxLeds < n.toNat) ↔ ¬CountOk n := by
  have hmax : Config.maxLeds = 64 := rfl
  simp only [CountOk, hmax]
  bv_omega

/-- `INIT` completes from a well-formed state at any iteration: it counts from the zero context (R133). -/
theorem opInit_completes {s : State} (b : Binding) (n : LedCount) (icb : CbArg) (pwr : Bool) (ucb : CbArg)
    (hinv : s.Inv) : Completes (opInit b n icb pwr ucb s) := by
  by_cases hok : CountOk n
  · rw [opInit_countOk s b n icb pwr ucb hok]
    rcases optionalWalk_cases .init icb n (bound b n (beforeBinding s)) hok.2 with ⟨_, hw⟩ | ⟨_, m, _, _, hw⟩
    · rw [hw, onSuccess_ret_success]
      cases pwr
      · exact completes_ret _ _
      · have hit : (filled b n icb s).ctx.iteration ≠ iterationMax := by
          show (beforeBinding s).ctx.iteration ≠ iterationMax
          rw [beforeBinding_ctx hinv]
          decide
        exact powerOnOrRollBack_completes (opPowerOn_completes ucb (fun _ => hok) hit)
    · rw [hw, onSuccess_ret _ _ _ (by decide)]
      exact completes_ret _ _
  · rw [opInit, if_pos ((initCheck_iff_not_countOk n).mpr hok)]
    exact completes_ret _ _

/-- Settles O28: each command's operation completes. -/
theorem everyCommandCompletes : Obligations.EveryCommandCompletes := by
  intro i s hinv hit
  cases i with
  | init b n icb pwr ucb => exact respond_of_completes (opInit_completes b n icb pwr ucb hinv)
  | powerOn ucb => exact respond_of_completes (opPowerOn_completes ucb hinv.countOk hit)
  | powerOff => exact respond_of_completes (opPowerOff_completes s)
  | update ucb => exact respond_of_completes (opUpdate_completes ucb hinv.countOk hit)
  | uninit => exact respond_of_completes (opUninit_completes s)

end Sys2Proof.Machine

/-! ## The trace: what a command appends, and that no rule reads it (00_scope R11, R17) -/

namespace Sys2Proof.Machine

/-- From `s` to `s'` the trace gains events, none of them a response. -/
def AppendsNoResponse (s s' : State) : Prop := ∃ es, s'.trace = s.trace ++ es ∧ ∀ code, .resp code ∉ es

theorem resp_not_mem_walkEvents (port : CbPort) (s : State) (m : Nat) (code : Result) :
    .resp code ∉ walkEvents port s m := by
  cases port <;> simp [walkEvents, exchangeEvent, List.mem_mapIdx]

theorem resp_not_mem_byteEvents (sel : Sel) (hi lo : PortWord) (v : Chan) (code : Result) :
    .resp code ∉ byteEvents sel hi lo v := by
  have hpulse : ∀ bit, .resp code ∉ pulseEvents sel hi lo bit := by
    intro bit
    cases bit <;> simp [pulseEvents]
  simp [byteEvents, hpulse]

theorem resp_not_mem_txEvents (sel : Sel) (hi lo : PortWord) (bytes : List Chan) (e : Bool) (code : Result) :
    .resp code ∉ txEvents sel hi lo bytes e := by
  simp [txEvents, resp_not_mem_byteEvents]

/-- Only `respond` emits a response (R130): no piece of a command does. -/
theorem pieces_appendsNoResponse : Pieces AppendsNoResponse where
  refl s := ⟨[], by simp, by simp⟩
  trans := by
    rintro s t u ⟨es, ht, hes⟩ ⟨fs, hu, hfs⟩
    exact ⟨es ++ fs, by rw [hu, ht, List.append_assoc], by simp [hes, hfs]⟩
  power on s := ⟨_, rfl, by simp⟩
  clear s := ⟨_, rfl, by simp⟩
  bind b n s := ⟨_, rfl, by simp⟩
  walk port m s := ⟨_, rfl, resp_not_mem_walkEvents port s m⟩
  transmit s := ⟨_, rfl, resp_not_mem_txEvents _ _ _ _ _⟩
  count s := ⟨[], by simp [counted], by simp⟩

/-- Settles O41, by the induction over the pieces of a command. -/
theorem eachCommandRespondsOnceLast : Obligations.EachCommandRespondsOnceLast := by
  intro i s s' h
  obtain ⟨r, s₁, rfl, es, htrace, hes⟩ := pieces_appendsNoResponse.exec h
  exact ⟨es, r, h, by simp [responded, htrace], hes⟩

/-- What a piece does on one trace it does on every other: it appends what it leaves on the empty trace, and everything
else comes out the same. -/
def IgnoresTrace (f : State → State) : Prop :=
  ∀ s t, f { s with trace := t } = { f s with trace := t ++ (f { s with trace := [] }).trace }

/-- Two runs that differ in the trace alone: one began on the trace `t₁`, the other on `t₂`, and both have appended the
same events since. -/
def SameSince (t₁ t₂ : List Event) (s t : State) : Prop :=
  ∃ es, s.trace = t₁ ++ es ∧ t = { s with trace := t₂ ++ es }

theorem IgnoresTrace.sameSince {f : State → State} (hf : IgnoresTrace f) {t₁ t₂ : List Event} {s t : State}
    (h : SameSince t₁ t₂ s t) : SameSince t₁ t₂ (f s) (f t) := by
  obtain ⟨es, hs, rfl⟩ := h
  have htrace : (f s).trace = s.trace ++ (f { s with trace := [] }).trace := congrArg State.trace (hf s s.trace)
  refine ⟨es ++ (f { s with trace := [] }).trace, ?_, ?_⟩
  · rw [htrace, hs, List.append_assoc]
  · rw [hf, List.append_assoc]

/-- The pieces of every command keep the two runs together. -/
theorem fullAgreement_sameSince (t₁ t₂ : List Event) : FullAgreement (SameSince t₁ t₂) where
  status := by rintro s _ ⟨es, _, rfl⟩; rfl
  count := by rintro s _ ⟨es, _, rfl⟩; rfl
  iteration := by rintro s _ ⟨es, _, rfl⟩; rfl
  succeeds := by
    rintro s _ port n ⟨es, _, rfl⟩ _ h
    exact h
  fails := by
    rintro s _ port m ⟨es, _, rfl⟩ _ h
    exact h
  power on := IgnoresTrace.sameSince fun _ _ => rfl
  walk port m h _ := IgnoresTrace.sameSince (f := walked port m) (fun _ _ => rfl) h
  transmit h _ := IgnoresTrace.sameSince (f := transmitted) (fun _ _ => rfl) h
  counted := IgnoresTrace.sameSince fun _ _ => by simp [Machine.counted]
  respond r := IgnoresTrace.sameSince fun _ _ => rfl
  clear := IgnoresTrace.sameSince fun _ _ => rfl
  bind b n := IgnoresTrace.sameSince fun _ _ => rfl

/-- Settles O53: the two runs start together, and every command keeps them together. -/
theorem traceIsReadByNoRule : Obligations.TraceIsReadByNoRule := by
  intro i s s' t h
  have hstart : SameSince s.trace t s { s with trace := t } := ⟨[], by simp, by simp⟩
  obtain ⟨_, hrun, es, htrace, rfl⟩ := (fullAgreement_sameSince s.trace t).exec hstart h
  exact ⟨es, htrace, hrun⟩

end Sys2Proof.Machine

/-! ## What POWER_ON, POWER_OFF and UPDATE leave as it was (10_state R23, R28, R29, R35) -/

namespace Sys2Proof.Machine

/-- What a command leaves that works within one binding and asks its callback about no LED from `m` on: the binding, the
count, `STATUS.I`, the slots from `m` on, and every GPIO register but the bound output register. -/
structure SessionFrame (m : Nat) (s s' : State) : Prop where
  binding : s'.ctx.binding = s.ctx.binding
  count : s'.ctx.count = s.ctx.count
  initialized : isInitialized s' = isInitialized s
  slots : ∀ i, m ≤ i → slot s'.ctx i = slot s.ctx i
  registers : ∀ sel, sel ≠ s.ctx.binding.port → gpioRead s' sel = gpioRead s sel

namespace SessionFrame

theorem refl (m : Nat) (s : State) : SessionFrame m s s := ⟨rfl, rfl, rfl, fun _ _ => rfl, fun _ _ => rfl⟩

theorem trans {m : Nat} {s t u : State} (h₁ : SessionFrame m s t) (h₂ : SessionFrame m t u) : SessionFrame m s u where
  binding := h₂.binding.trans h₁.binding
  count := h₂.count.trans h₁.count
  initialized := h₂.initialized.trans h₁.initialized
  slots i hi := (h₂.slots i hi).trans (h₁.slots i hi)
  registers sel hsel := (h₂.registers sel (h₁.binding ▸ hsel)).trans (h₁.registers sel hsel)

theorem mono {m n : Nat} {s s' : State} (h : SessionFrame m s s') (hmn : m ≤ n) : SessionFrame n s s' :=
  { h with slots := fun i hi => h.slots i (Nat.le_trans hmn hi) }

theorem of_powerSwitched (m : Nat) (on : Bool) (s : State) : SessionFrame m s (powerSwitched on s) :=
  ⟨rfl, rfl, rfl, fun _ _ => rfl, fun sel hsel => by rw [gpioRead_powerSwitched, if_neg hsel]⟩

theorem of_walked {m n : Nat} (port : CbPort) (s : State) (hmn : m ≤ n) : SessionFrame n s (walked port m s) :=
  ⟨rfl, rfl, rfl, fun _ hi => slot_walked_of_le port s (Nat.le_trans hmn hi), fun _ _ => rfl⟩

theorem of_transmitted (m : Nat) (s : State) : SessionFrame m s (transmitted s) :=
  ⟨rfl, rfl, rfl, fun _ _ => rfl, fun sel hsel => by rw [gpioRead_transmitted, if_neg hsel]⟩

theorem of_counted (m : Nat) (s : State) : SessionFrame m s (counted s) :=
  ⟨rfl, rfl, rfl, fun _ _ => rfl, fun _ _ => rfl⟩

theorem of_responded (m : Nat) (r : Result) (s : State) : SessionFrame m s (responded r s) :=
  ⟨rfl, rfl, rfl, fun _ _ => rfl, fun _ _ => rfl⟩

/-- A byte of the buffer stays where its slot does (R61). -/
theorem bufferByte_eq {m k : Nat} {s s' : State} (h : SessionFrame m s s') (hk : 3 * m ≤ k) :
    bufferByte s'.ctx k = bufferByte s.ctx k := by
  have hslot : m ≤ k / 3 := by omega
  simp only [bufferByte, h.slots _ hslot]

theorem of_opPowerOff {s s' : State} {r : Result} (h : opPowerOff s = .next (r, s')) : SessionFrame 0 s s' := by
  rcases opPowerOff_eq_next h with ⟨_, rfl⟩ | ⟨_, _, _, rfl⟩
  · exact refl 0 _
  · exact of_powerSwitched 0 false s

theorem of_opUpdate {s s' : State} {ucb : CbArg} {r : Result} (h : opUpdate ucb s = .next (r, s')) :
    SessionFrame (requests ucb s.ctx.count) s s' := by
  rcases opUpdate_eq_next h with ⟨_, rfl⟩ | ⟨_, _, ⟨_, rfl, m, hm, _, rfl⟩ | ⟨_, _, rfl⟩ | ⟨_, _, _, _, rfl⟩⟩
  · exact refl _ _
  · exact of_walked .update s hm
  · exact refl _ _
  · exact ((of_walked .update s (Nat.le_refl _)).trans (of_transmitted _ _)).trans (of_counted _ _)

theorem of_opPowerOn {s s' : State} {ucb : CbArg} {r : Result} (h : opPowerOn ucb s = .next (r, s')) :
    SessionFrame (requests ucb s.ctx.count) s s' := by
  rcases opPowerOn_eq_next h with ⟨_, rfl⟩ | ⟨_, _, h⟩
  · exact refl _ _
  · exact (of_powerSwitched _ true s).trans (of_opUpdate h)

theorem of_execPowerOff {s s' : State} (h : exec .powerOff s = .next s') : SessionFrame 0 s s' := by
  obtain ⟨r, s₁, ho, rfl⟩ := respond_eq_next h
  exact (of_opPowerOff ho).trans (of_responded _ r s₁)

theorem of_execUpdate {s s' : State} {ucb : CbArg} (h : exec (.update ucb) s = .next s') :
    SessionFrame (requests ucb s.ctx.count) s s' := by
  obtain ⟨r, s₁, ho, rfl⟩ := respond_eq_next h
  exact (of_opUpdate ho).trans (of_responded _ r s₁)

theorem of_execPowerOn {s s' : State} {ucb : CbArg} (h : exec (.powerOn ucb) s = .next s') :
    SessionFrame (requests ucb s.ctx.count) s s' := by
  obtain ⟨r, s₁, ho, rfl⟩ := respond_eq_next h
  exact (of_opPowerOn ho).trans (of_responded _ r s₁)

end SessionFrame

/-- `UPDATE` changes neither flag of `STATUS` (R143). -/
theorem opUpdate_status {s s' : State} {ucb : CbArg} {r : Result} (h : opUpdate ucb s = .next (r, s')) :
    s'.ctx.status = s.ctx.status := by
  rcases opUpdate_eq_next h with ⟨_, rfl⟩ | ⟨_, _, ⟨_, _, _, _, _, rfl⟩ | ⟨_, _, rfl⟩ | ⟨_, _, _, _, rfl⟩⟩ <;> rfl

/-- `POWER_OFF` counts nothing (R142). -/
theorem opPowerOff_iteration {s s' : State} {r : Result} (h : opPowerOff s = .next (r, s')) :
    s'.ctx.iteration = s.ctx.iteration := by
  rcases opPowerOff_eq_next h with ⟨_, rfl⟩ | ⟨_, _, _, rfl⟩ <;> rfl

/-- The three commands that keep the context's session leave the slots from `COUNT` on. -/
theorem sessionFrame_exec {i : Instr} {s s' : State} (hi : i = .powerOff ∨ ∃ ucb, i = .powerOn ucb ∨ i = .update ucb)
    (h : exec i s = .next s') : SessionFrame s.ctx.count.toNat s s' := by
  rcases hi with rfl | ⟨ucb, rfl | rfl⟩
  · exact (SessionFrame.of_execPowerOff h).mono (Nat.zero_le _)
  · exact (SessionFrame.of_execPowerOn h).mono (requests_le ucb _)
  · exact (SessionFrame.of_execUpdate h).mono (requests_le ucb _)

/-- Without a callback they leave every slot. -/
theorem sessionFrame_exec_noCallback {i : Instr} {s s' : State}
    (hi : i = .powerOff ∨ i = .powerOn .absent ∨ i = .update .absent) (h : exec i s = .next s') :
    SessionFrame 0 s s' := by
  rcases hi with rfl | rfl | rfl
  · exact SessionFrame.of_execPowerOff h
  · exact SessionFrame.of_execPowerOn h
  · exact SessionFrame.of_execUpdate h

/-- Settles O39, by the frame of the three commands. -/
theorem contextFrame : Obligations.ContextFrame := by
  intro s s'
  refine ⟨fun i hi h => ?_, fun i hi h k => ?_, fun ucb h => ?_, fun h => ?_⟩
  · have hf := sessionFrame_exec hi h
    exact ⟨hf.binding, hf.count, hf.initialized, fun k hk => hf.bufferByte_eq hk⟩
  · exact (sessionFrame_exec_noCallback hi h).bufferByte_eq (Nat.zero_le k)
  · obtain ⟨r, s₁, ho, rfl⟩ := respond_eq_next h
    exact congrArg Status.poweredOn (opUpdate_status ho :)
  · obtain ⟨r, s₁, ho, rfl⟩ := respond_eq_next h
    exact (opPowerOff_iteration ho :)

end Sys2Proof.Machine

/-! ## What every command leaves outside the context (10_state R32, R35, R36, R37) -/

namespace Sys2Proof.Machine

/-- From `s` to `s'` the host's remaining inputs, the attached callbacks and `IE` stay, and an idle timer stays idle. -/
structure KeepsEnvironment (s s' : State) : Prop where
  inputs : s'.inputs = s.inputs
  icbTable : s'.icbTable = s.icbTable
  ucbTable : s'.ucbTable = s.ucbTable
  ie : s'.ie = s.ie
  idle : s.phase = .idle → s'.phase = .idle

theorem pieces_keepEnvironment : Pieces KeepsEnvironment where
  refl _ := ⟨rfl, rfl, rfl, rfl, id⟩
  trans h₁ h₂ := ⟨h₂.inputs.trans h₁.inputs, h₂.icbTable.trans h₁.icbTable, h₂.ucbTable.trans h₁.ucbTable,
    h₂.ie.trans h₁.ie, h₂.idle ∘ h₁.idle⟩
  power _ _ := ⟨rfl, rfl, rfl, rfl, id⟩
  clear _ := ⟨rfl, rfl, rfl, rfl, id⟩
  bind _ _ _ := ⟨rfl, rfl, rfl, rfl, id⟩
  walk _ _ _ := ⟨rfl, rfl, rfl, rfl, id⟩
  transmit _ := ⟨rfl, rfl, rfl, rfl, fun _ => rfl⟩
  count _ := ⟨rfl, rfl, rfl, rfl, id⟩

theorem keepsEnvironment_exec {i : Instr} {s s' : State} (h : exec i s = .next s') : KeepsEnvironment s s' := by
  obtain ⟨r, s₁, rfl, hinputs, hicb, hucb, hie, hidle⟩ := pieces_keepEnvironment.exec h
  exact ⟨hinputs, hicb, hucb, hie, hidle⟩

/-- From `s` to `s'` every transient register stays (R33, R34, R36, R37). -/
structure KeepsTransients (s s' : State) : Prop where
  patHi : s'.patHi = s.patHi
  patLo : s'.patLo = s.patLo
  savedIe : s'.savedIe = s.savedIe
  k : s'.k = s.k
  j : s'.j = s.j
  i : s'.i = s.i
  phase : s'.phase = s.phase

theorem KeepsTransients.refl (s : State) : KeepsTransients s s := ⟨rfl, rfl, rfl, rfl, rfl, rfl, rfl⟩

theorem KeepsTransients.responded {s s' : State} (r : Result) (h : KeepsTransients s s') :
    KeepsTransients s (responded r s') :=
  ⟨h.patHi, h.patLo, h.savedIe, h.k, h.j, h.i, h.phase⟩

theorem keepsTransients_opPowerOff {s s' : State} {r : Result} (h : opPowerOff s = .next (r, s')) :
    KeepsTransients s s' := by
  rcases opPowerOff_eq_next h with ⟨_, rfl⟩ | ⟨_, _, _, rfl⟩
  · exact KeepsTransients.refl s'
  · exact ⟨rfl, rfl, rfl, rfl, rfl, rfl, rfl⟩

theorem keepsTransients_opUninit {s s' : State} {r : Result} (h : opUninit s = .next (r, s')) :
    KeepsTransients s s' := by
  rcases opUninit_eq_next h with ⟨_, _, rfl⟩ | ⟨_, _, rfl⟩
  · exact KeepsTransients.refl s'
  · split <;> exact ⟨rfl, rfl, rfl, rfl, rfl, rfl, rfl⟩

theorem beforeBinding_of_unbound {s : State} (hI : isInitialized s = false) : beforeBinding s = s := by
  simp [beforeBinding, lifecycle, hI]

/-- What `INIT` starts on when it finds an initialized context is what `UNINIT` leaves (R133). -/
theorem opUninit_eq_beforeBinding {s : State} (hI : isInitialized s = true) :
    opUninit s = .next (.success, beforeBinding s) := by
  have h := implicitUninit s
  rwa [if_pos hI] at h

theorem keepsTransients_beforeBinding (s : State) : KeepsTransients s (beforeBinding s) := by
  cases hI : isInitialized s
  · rw [beforeBinding_of_unbound hI]
    exact KeepsTransients.refl s
  · exact keepsTransients_opUninit (opUninit_eq_beforeBinding hI)

/-- `INIT` that neither asks nor powers on only binds. -/
theorem opInit_bindOnly_eq_next {s s' : State} {b : Binding} {n : LedCount} {ucb : CbArg} {r : Result}
    (h : opInit b n .absent false ucb s = .next (r, s')) : s' = s ∨ s' = bound b n (beforeBinding s) := by
  rcases opInit_eq_next h with ⟨_, _, rfl⟩ | ⟨_, ⟨_, habs, _⟩ | ⟨_, _, rfl⟩ | ⟨hpwr, _⟩ | ⟨hpwr, _⟩⟩
  · exact .inl rfl
  · cases habs
  · exact .inr (walked_zero _ _)
  · cases hpwr
  · cases hpwr

theorem keepsTransients_opInit_bindOnly {s s' : State} {b : Binding} {n : LedCount} {ucb : CbArg} {r : Result}
    (h : opInit b n .absent false ucb s = .next (r, s')) : KeepsTransients s s' := by
  rcases opInit_bindOnly_eq_next h with rfl | rfl
  · exact KeepsTransients.refl s'
  · obtain ⟨hhi, hlo, hsaved, hk, hj, hi, hphase⟩ := keepsTransients_beforeBinding s
    exact ⟨hhi, hlo, hsaved, hk, hj, hi, hphase⟩

theorem keepsTransients_exec {i : Instr} {s s' : State}
    (hi : i = .powerOff ∨ i = .uninit ∨ ∃ b n ucb, i = .init b n .absent false ucb) (h : exec i s = .next s') :
    KeepsTransients s s' := by
  rcases hi with rfl | rfl | ⟨b, n, ucb, rfl⟩ <;> obtain ⟨r, s₁, ho, rfl⟩ := respond_eq_next h
  · exact (keepsTransients_opPowerOff ho).responded r
  · exact (keepsTransients_opUninit ho).responded r
  · exact (keepsTransients_opInit_bindOnly ho).responded r

/-- Settles O40: the induction over the pieces for what every command keeps, and the inversions of the three commands
that neither transmit nor ask for the transient registers. -/
theorem environmentFrame : Obligations.EnvironmentFrame := by
  refine ⟨fun i s s' h => ?_, fun s s' i hi h => ?_⟩
  · obtain ⟨hinputs, hicb, hucb, _, hidle⟩ := keepsEnvironment_exec h
    exact ⟨hinputs, hicb, hucb, hidle⟩
  · obtain ⟨hhi, hlo, hsaved, hk, hj, hi, hphase⟩ := keepsTransients_exec hi h
    exact ⟨hhi, hlo, hsaved, hk, hj, hi, hphase⟩

end Sys2Proof.Machine

/-! ## INIT as a binding followed by a session (40_device_ops R131 to R136), and the registers a command writes -/

namespace Sys2Proof.Machine

/-- `INIT` past its count check binds, works within that binding, and either stops there or is rolled back by an
`UNINIT` (R131, R136). -/
theorem opInit_session {s s' : State} {b : Binding} {n : LedCount} {icb ucb : CbArg} {pwr : Bool} {r : Result}
    (h : opInit b n icb pwr ucb s = .next (r, s')) :
    s' = s ∨ CountOk n ∧ ∃ s₁, KeepsEnvironment s s₁ ∧ SessionFrame n.toNat (bound b n (beforeBinding s)) s₁ ∧
      (s' = s₁ ∨ ∃ r', opUninit s₁ = .next (r', s')) := by
  have P := pieces_keepEnvironment
  have hbound : KeepsEnvironment s (bound b n (beforeBinding s)) := P.trans (P.beforeBinding s) (P.bind _ _ _)
  have hfilled {m : Nat} (hm : m ≤ n.toNat) :
      SessionFrame n.toNat (bound b n (beforeBinding s)) (walked .init m (bound b n (beforeBinding s))) :=
    SessionFrame.of_walked .init _ hm
  have hpowered {r₁ : Result} {s₁ : State}
      (hon : opPowerOn ucb (walked .init (requests icb n) (bound b n (beforeBinding s))) = .next (r₁, s₁)) :
      KeepsEnvironment s s₁ ∧ SessionFrame n.toNat (bound b n (beforeBinding s)) s₁ :=
    ⟨P.trans (P.trans hbound (P.walk _ _ _)) (P.opPowerOn hon),
      (hfilled (requests_le icb n)).trans ((SessionFrame.of_opPowerOn hon).mono (requests_le ucb n))⟩
  rcases opInit_eq_next h with
    ⟨_, _, rfl⟩ | ⟨hok, ⟨_, _, m, hm, rfl⟩ | ⟨_, _, rfl⟩ | ⟨_, _, hon⟩ | ⟨_, _, s₁, r₂, hon, hun⟩⟩
  · exact .inl rfl
  · exact .inr ⟨hok, _, P.trans hbound (P.walk _ _ _), hfilled hm, .inl rfl⟩
  · exact .inr ⟨hok, _, P.trans hbound (P.walk _ _ _), hfilled (requests_le icb n), .inl rfl⟩
  · obtain ⟨henv, hframe⟩ := hpowered hon
    exact .inr ⟨hok, s', henv, hframe, .inl rfl⟩
  · obtain ⟨henv, hframe⟩ := hpowered hon
    exact .inr ⟨hok, s₁, henv, hframe, .inr ⟨r₂, hun⟩⟩

/-- `UNINIT` writes the two bound registers only (R149). -/
theorem gpioRead_opUninit {s s' : State} {r : Result} {sel : Sel} (h : opUninit s = .next (r, s'))
    (hsel : ¬(sel = s.ctx.binding.ddr ∨ sel = s.ctx.binding.port)) : gpioRead s' sel = gpioRead s sel := by
  have hport : sel ≠ s.ctx.binding.port := fun h => hsel (.inr h)
  rcases opUninit_eq_next h with ⟨_, _, rfl⟩ | ⟨_, _, rfl⟩
  · rfl
  · split
    · have hpower := (SessionFrame.of_powerSwitched 0 false s).registers sel hport
      exact (gpioRead_cleared _ sel).trans ((if_neg hsel).trans hpower)
    · rw [gpioRead_cleared, if_neg hsel]

theorem gpioRead_beforeBinding {s : State} {sel : Sel}
    (hsel : ¬(isInitialized s = true ∧ (sel = s.ctx.binding.ddr ∨ sel = s.ctx.binding.port))) :
    gpioRead (beforeBinding s) sel = gpioRead s sel := by
  cases hI : isInitialized s
  · rw [beforeBinding_of_unbound hI]
  · exact gpioRead_opUninit (opUninit_eq_beforeBinding hI) fun h => hsel ⟨hI, h⟩

/-- `INIT` writes the two registers of its operand, and those that were bound (R134, R149). -/
theorem gpioRead_opInit {s s' : State} {b : Binding} {n : LedCount} {icb ucb : CbArg} {pwr : Bool} {r : Result}
    {sel : Sel} (h : opInit b n icb pwr ucb s = .next (r, s')) (hsel : ¬(sel = b.ddr ∨ sel = b.port))
    (hold : ¬(isInitialized s = true ∧ (sel = s.ctx.binding.ddr ∨ sel = s.ctx.binding.port))) :
    gpioRead s' sel = gpioRead s sel := by
  obtain ⟨hddr, hport⟩ := not_or.mp hsel
  rcases opInit_session h with rfl | ⟨_, s₁, _, hframe, hend⟩
  · rfl
  · have hbound : gpioRead s₁ sel = gpioRead s sel := by
      rw [hframe.registers sel hport, gpioRead_bound, if_neg hport, if_neg hddr, gpioRead_beforeBinding hold]
    rcases hend with rfl | ⟨r', hun⟩
    · exact hbound
    · have hsel₁ : ¬(sel = s₁.ctx.binding.ddr ∨ sel = s₁.ctx.binding.port) := by rw [hframe.binding]; exact hsel
      rw [gpioRead_opUninit hun hsel₁, hbound]

/-- Settles O38: the registers each command leaves. -/
theorem onlyBoundRegistersAreWritten : Obligations.OnlyBoundRegistersAreWritten := by
  intro i s s' sel h hsel
  cases i with
  | init b n icb pwr ucb =>
    obtain ⟨r, s₁, ho, rfl⟩ := respond_eq_next h
    simp only [mayWrite, ← or_assoc] at hsel
    obtain ⟨hnew, hold⟩ := not_or.mp hsel
    exact (gpioRead_opInit ho hnew hold :)
  | powerOn ucb => exact (SessionFrame.of_execPowerOn h).registers sel hsel
  | powerOff => exact (SessionFrame.of_execPowerOff h).registers sel hsel
  | update ucb => exact (SessionFrame.of_execUpdate h).registers sel hsel
  | uninit =>
    obtain ⟨r, s₁, ho, rfl⟩ := respond_eq_next h
    exact (gpioRead_opUninit ho hsel :)

end Sys2Proof.Machine

/-! ## The invariants: at reset, and kept by every step (10_state R25, R28, R29, R40; 40_device_ops R151) -/

namespace Sys2Proof.Machine

/-- The zero context on an idle block is well formed (R40). -/
theorem inv_of_zero {s : State} (hctx : s.ctx = Ctx.zero) (hidle : s.phase = .idle) : s.Inv where
  powered_init := by simp [isPoweredOn, hctx, Ctx.zero]
  count_pos := by simp [isInitialized, hctx, Ctx.zero]
  count_le := by simp [hctx, Ctx.zero]
  unbound_zero _ := hctx
  tail_zero i _ hi := by
    have hi : i < 64 := hi
    simp [slot, hctx, Ctx.zero, hi]
  idle := hidle

/-- Settles O12: reset leaves the zero context and an idle block, and nothing is bound. -/
theorem resetMeetsTheInvariants : Obligations.ResetMeetsTheInvariants := by
  intro ie0 gpio0 q t u
  exact ⟨inv_of_zero rfl rfl, nofun⟩

/-- The invariant speaks of the context and of `PHASE` only. -/
theorem State.Inv.of_ctx_eq {s t : State} (h : s.Inv) (hctx : t.ctx = s.ctx) (hidle : t.phase = .idle) : t.Inv where
  powered_init := by simpa only [isPoweredOn, isInitialized, hctx] using h.powered_init
  count_pos := by simpa only [isInitialized, hctx] using h.count_pos
  count_le := hctx ▸ h.count_le
  unbound_zero := by simpa only [isInitialized, hctx] using h.unbound_zero
  tail_zero := hctx ▸ h.tail_zero
  idle := hidle

/-- Work within the binding of an initialized context keeps the invariant. -/
theorem State.Inv.of_sessionFrame {s s' : State} (h : s.Inv) (hI : isInitialized s = true)
    (hf : SessionFrame s.ctx.count.toNat s s') (hidle : s'.phase = .idle) : s'.Inv where
  powered_init _ := hf.initialized.trans hI
  count_pos _ := by rw [hf.count]; exact h.count_pos hI
  count_le := by rw [hf.count]; exact h.count_le
  unbound_zero hI' := by rw [hf.initialized, hI] at hI'; cases hI'
  tail_zero i hi hmax := by
    rw [hf.count] at hi
    rw [hf.slots i hi]
    exact h.tail_zero i hi hmax
  idle := hidle

/-- Binding the zero context with a count that `INIT` accepts gives a well-formed state (R134). -/
theorem inv_bound {s : State} (b : Binding) {n : LedCount} (hctx : s.ctx = Ctx.zero) (hidle : s.phase = .idle)
    (hn : CountOk n) : (bound b n s).Inv where
  powered_init _ := rfl
  count_pos _ := hn.1
  count_le := hn.2
  unbound_zero := nofun
  tail_zero i _ hi := (inv_of_zero hctx hidle).tail_zero i (by simp [hctx, Ctx.zero]) hi
  idle := hidle

theorem inv_opUninit {s s' : State} {r : Result} (hinv : s.Inv) (h : opUninit s = .next (r, s')) : s'.Inv := by
  have hidle := (pieces_keepEnvironment.opUninit h).idle hinv.idle
  rcases opUninit_eq_next h with ⟨_, _, rfl⟩ | ⟨_, _, rfl⟩
  · exact hinv
  · exact inv_of_zero rfl hidle

theorem inv_opInit {s s' : State} {b : Binding} {n : LedCount} {icb ucb : CbArg} {pwr : Bool} {r : Result}
    (hinv : s.Inv) (h : opInit b n icb pwr ucb s = .next (r, s')) : s'.Inv := by
  rcases opInit_session h with rfl | ⟨hok, s₁, henv, hframe, hend⟩
  · exact hinv
  · have hbefore : (beforeBinding s).phase = .idle := (pieces_keepEnvironment.beforeBinding s).idle hinv.idle
    have hinv₁ : s₁.Inv :=
      (inv_bound b (beforeBinding_ctx hinv) hbefore hok).of_sessionFrame rfl hframe (henv.idle hinv.idle)
    rcases hend with rfl | ⟨r', hun⟩
    · exact hinv₁
    · exact inv_opUninit hinv₁ hun

/-- An operation that either refuses without side effect or finds the context initialized leaves an unbound one. -/
theorem unchanged_of_unbound {P Q : Prop} {s s' : State} (hI : isInitialized s = false)
    (h : (P ∧ s' = s) ∨ (isInitialized s = true ∧ Q)) : s' = s := by
  rcases h with ⟨_, hs⟩ | ⟨hI', _⟩
  · exact hs
  · rw [hI] at hI'
    cases hI'

/-- `POWER_ON`, `POWER_OFF` and `UPDATE` refuse an unbound context without side effect, and work within the binding of
an initialized one. -/
theorem inv_session {i : Instr} {s s' : State} (hi : i = .powerOff ∨ ∃ ucb, i = .powerOn ucb ∨ i = .update ucb)
    (hinv : s.Inv) (h : exec i s = .next s') : s'.Inv := by
  have hidle := (keepsEnvironment_exec h).idle hinv.idle
  cases hI : isInitialized s
  · have hctx : s'.ctx = s.ctx := by
      rcases hi with rfl | ⟨ucb, rfl | rfl⟩ <;> obtain ⟨r, s₁, ho, rfl⟩ := respond_eq_next h
      · exact (congrArg State.ctx (unchanged_of_unbound hI (opPowerOff_eq_next ho)) :)
      · exact (congrArg State.ctx (unchanged_of_unbound hI (opPowerOn_eq_next ho)) :)
      · exact (congrArg State.ctx (unchanged_of_unbound hI (opUpdate_eq_next ho)) :)
    exact hinv.of_ctx_eq hctx hidle
  · exact hinv.of_sessionFrame hI (sessionFrame_exec hi h) hidle

theorem inv_exec {i : Instr} {s s' : State} (hinv : s.Inv) (h : exec i s = .next s') : s'.Inv := by
  have hidle := (keepsEnvironment_exec h).idle hinv.idle
  cases i with
  | init b n icb pwr ucb =>
    obtain ⟨r, s₁, ho, rfl⟩ := respond_eq_next h
    exact (inv_opInit hinv ho).of_ctx_eq rfl hidle
  | powerOn ucb => exact inv_session (.inr ⟨ucb, .inl rfl⟩) hinv h
  | powerOff => exact inv_session (.inl rfl) hinv h
  | update ucb => exact inv_session (.inr ⟨ucb, .inr rfl⟩) hinv h
  | uninit =>
    obtain ⟨r, s₁, ho, rfl⟩ := respond_eq_next h
    exact (inv_opUninit hinv ho).of_ctx_eq rfl hidle

theorem inv_performWord {w : CmdWord} {s s' : State} (hinv : s.Inv) (h : performWord w s = .next s') : s'.Inv := by
  unfold performWord at h
  split at h
  · exact inv_exec hinv h
  · cases h
    exact hinv.of_ctx_eq rfl hinv.idle

/-- What an idle block can do in a step: wait, take the host's setting of `IE`, or perform a word (R12, R32, R252). -/
theorem step_idle_eq_next {s s' : State} (hidle : s.phase = .idle) (h : step s = .next s') :
    s' = s ∨ (∃ v rest, s' = { s with inputs := rest, ie := v }) ∨
      ∃ w rest, performWord w { s with inputs := rest } = .next s' := by
  simp only [step, hidle] at h
  cases hin : s.inputs with
  | nil =>
    simp only [takeInput, hin] at h
    cases h
    exact .inl rfl
  | cons input rest =>
    cases input with
    | command w =>
      simp only [takeInput, hin] at h
      exact .inr (.inr ⟨w, rest, h⟩)
    | setIe v =>
      simp only [takeInput, hin] at h
      cases h
      exact .inr (.inl ⟨v, rest, rfl⟩)

/-- Settles O43: a well-formed block is idle, and what an idle block can do keeps the invariant. -/
theorem stepKeepsTheInvariants : Obligations.StepKeepsTheInvariants := by
  intro s s' hinv h
  rcases step_idle_eq_next hinv.idle h with rfl | ⟨v, rest, rfl⟩ | ⟨w, rest, hw⟩
  · exact hinv
  · exact hinv.of_ctx_eq rfl hinv.idle
  · have hinv₁ : { s with inputs := rest }.Inv := hinv.of_ctx_eq rfl hinv.idle
    exact inv_performWord hinv₁ hw

/-- Settles O52: the two flags are the register's low bits, and a well-formed state is not powered on while unbound. -/
theorem statusRegister : Obligations.StatusRegister := by
  refine ⟨fun st => ?_, fun s hinv => ?_⟩
  · simp only [Status.word, BitVec.getLsbD_append]
    refine ⟨by simp, by simp, fun k hk => ?_⟩
    have h0 : ¬k < 1 := by omega
    have h1 : ¬k - 1 < 1 := by omega
    simp [h0, h1]
  · have hstatus : s.ctx.status = ⟨isInitialized s, isPoweredOn s⟩ := rfl
    rw [hstatus, lifecycle]
    cases hI : isInitialized s <;> cases hP : isPoweredOn s
    · rfl
    · have hI' := hinv.powered_init hP
      rw [hI] at hI'
      cases hI'
    · rfl
    · rfl

end Sys2Proof.Machine

/-! ## The iteration counter, and INIT undone by UNINIT (10_state R26, R40; 40_device_ops R146, R149) -/

namespace Sys2Proof.Machine

/-- The answered result is that of the operation: it is the last event on the trace. -/
theorem respond_eq_next_of_trace {o : OpOutcome} {s' : State} {es : List Event} {r : Result}
    (h : respond o = .next s') (htrace : s'.trace = es ++ [.resp r]) : ∃ s₁, o = .next (r, s₁) ∧ s' = responded r s₁ := by
  obtain ⟨r', s₁, ho, rfl⟩ := respond_eq_next h
  have hlast : [Event.resp r'] = [.resp r] := (List.append_inj' htrace rfl).2
  obtain rfl : r' = r := by simpa using hlast
  exact ⟨s₁, ho, rfl⟩

/-- A failing check is an error (R15, R217). -/
theorem ne_success_of_poweredCheck {s : State} {r : Result} (h : poweredCheck s = some r) : r ≠ .success := by
  rintro rfl
  unfold poweredCheck at h
  split at h
  · cases h
  · split at h <;> cases h

theorem ne_success_of_unpoweredCheck {s : State} {r : Result} (h : unpoweredCheck s = some r) : r ≠ .success := by
  rintro rfl
  unfold unpoweredCheck at h
  split at h
  · cases h
  · split at h <;> cases h

/-- Below the maximum the increment of `ITERATION` does not wrap (R146). -/
theorem toNat_add_one_of_ne_iterationMax {it : Iteration} (h : it ≠ iterationMax) : (it + 1).toNat = it.toNat + 1 := by
  have hmax : it.toNat ≠ 2 ^ 32 - 1 := fun heq => h (BitVec.eq_of_toNat_eq (heq.trans (BitVec.toNat_allOnes).symm))
  bv_omega

theorem opUpdate_iteration {s s' : State} {ucb : CbArg} {r : Result} (h : opUpdate ucb s = .next (r, s')) :
    s'.ctx.iteration.toNat = s.ctx.iteration.toNat + (if r = .success then 1 else 0) := by
  rcases opUpdate_eq_next h with ⟨hc, rfl⟩ | ⟨_, _, ⟨rfl, _, _, _, _, rfl⟩ | ⟨rfl, _, rfl⟩ | ⟨rfl, _, hit, _, rfl⟩⟩
  · rw [if_neg (ne_success_of_poweredCheck hc), Nat.add_zero]
  · rfl
  · rfl
  · exact toNat_add_one_of_ne_iterationMax hit

theorem opPowerOn_iteration {s s' : State} {ucb : CbArg} {r : Result} (h : opPowerOn ucb s = .next (r, s')) :
    s'.ctx.iteration.toNat = s.ctx.iteration.toNat + (if r = .success then 1 else 0) := by
  rcases opPowerOn_eq_next h with ⟨hc, rfl⟩ | ⟨_, _, hu⟩
  · rw [if_neg (ne_success_of_unpoweredCheck hc), Nat.add_zero]
  · exact (opUpdate_iteration hu :)

theorem opUninit_success_iteration {s s' : State} (h : opUninit s = .next (.success, s')) : s'.ctx.iteration = 0 := by
  rcases opUninit_eq_next h with ⟨_, hr, _⟩ | ⟨_, _, rfl⟩
  · cases hr
  · rfl

/-- `INIT` counts from the zero context (R133). -/
theorem opInit_success_iteration {s s' : State} {b : Binding} {n : LedCount} {icb ucb : CbArg} {pwr : Bool}
    (hinv : s.Inv) (h : opInit b n icb pwr ucb s = .next (.success, s')) :
    s'.ctx.iteration = (if pwr then 1 else 0) := by
  have hzero : (beforeBinding s).ctx.iteration = 0 := by rw [beforeBinding_ctx hinv]; rfl
  rcases opInit_outcomes hinv h with ⟨_, hr, _⟩ | ⟨_, ⟨hr, _⟩ | ⟨rfl, _, rfl⟩ | ⟨rfl, _, rfl⟩ | ⟨_, _, hr, _⟩⟩
  · cases hr
  · cases hr
  · exact hzero
  · show (beforeBinding s).ctx.iteration + 1 = 1
    rw [hzero]
    rfl
  · cases hr

/-- Settles O49: what each operation adds, by its result. -/
theorem iterationCountsSuccessfulUpdates : Obligations.IterationCountsSuccessfulUpdates := by
  intro s s' es r hinv
  refine ⟨?_, ?_, ?_, ?_⟩
  · rintro i ⟨ucb, rfl | rfl⟩ ⟨h, htrace, _⟩ <;> obtain ⟨s₁, ho, rfl⟩ := respond_eq_next_of_trace h htrace
    · exact (opUpdate_iteration ho :)
    · exact (opPowerOn_iteration ho :)
  · rintro ⟨h, htrace, _⟩
    obtain ⟨s₁, ho, rfl⟩ := respond_eq_next_of_trace h htrace
    exact (opPowerOff_iteration ho :)
  · rintro ⟨h, htrace, _⟩
    obtain ⟨s₁, ho, rfl⟩ := respond_eq_next_of_trace h htrace
    exact (opUninit_success_iteration ho :)
  · rintro b n icb pwr ucb ⟨h, htrace, _⟩
    obtain ⟨s₁, ho, rfl⟩ := respond_eq_next_of_trace h htrace
    exact (opInit_success_iteration hinv ho :)

/-- If `INIT` leaves an unbound context initialized, it leaves it with the binding asked for (R134, R136). -/
theorem opInit_binding {s s' : State} {b : Binding} {n : LedCount} {icb ucb : CbArg} {pwr : Bool} {r : Result}
    (h : opInit b n icb pwr ucb s = .next (r, s')) (hI : isInitialized s = false) (hI' : isInitialized s' = true) :
    s'.ctx.binding = b := by
  rcases opInit_session h with rfl | ⟨_, s₁, _, hframe, rfl | ⟨r', hun⟩⟩
  · rw [hI] at hI'
    cases hI'
  · exact hframe.binding
  · have hI₁ : isInitialized s₁ = true := hframe.initialized
    rcases opUninit_eq_next hun with ⟨hI₁', _⟩ | ⟨_, _, rfl⟩
    · rw [hI₁] at hI₁'
      cases hI₁'
    · cases hI'

/-- What `UNINIT` leaves of an initialized context, and in every register (R149). -/
theorem exec_uninit_initialized {s : State} (hI : isInitialized s = true) :
    ∃ s', exec .uninit s = .next s' ∧ s'.ctx = Ctx.zero ∧
      ∀ sel, gpioRead s' sel =
        if sel = s.ctx.binding.ddr ∨ sel = s.ctx.binding.port then 0 else gpioRead s sel := by
  have hop := opUninit_initialized hI
  refine ⟨_, congrArg respond hop, rfl, fun sel => ?_⟩
  by_cases hsel : sel = s.ctx.binding.ddr ∨ sel = s.ctx.binding.port
  · rw [if_pos hsel]
    refine (gpioRead_cleared _ sel).trans (if_pos ?_)
    split <;> exact hsel
  · rw [if_neg hsel]
    exact (gpioRead_opUninit hop hsel :)

/-- Settles O50: `INIT` left the binding asked for, `UNINIT` clears its two registers, and neither writes another. -/
theorem initThenUninitRestores : Obligations.InitThenUninitRestores := by
  intro s s₁ b n icb pwr ucb hinv hI hinit hI₁
  have hbinding : s₁.ctx.binding = b := by
    obtain ⟨r, s', ho, rfl⟩ := respond_eq_next hinit
    exact (opInit_binding ho hI hI₁ :)
  obtain ⟨s₂, huninit, hctx, hread⟩ := exec_uninit_initialized hI₁
  refine ⟨s₂, huninit, hctx, (keepsEnvironment_exec huninit).ie.trans (keepsEnvironment_exec hinit).ie, fun sel => ?_⟩
  rw [hread, hbinding]
  split
  · rfl
  next hsel =>
    have hfree : ¬mayWrite (.init b n icb pwr ucb) s sel := by
      simpa [mayWrite, hI] using hsel
    exact onlyBoundRegistersAreWritten _ _ _ _ hinit hfree

end Sys2Proof.Machine

/-! ## What no rule reads: IE but where it is saved, and the slots from COUNT on (10_state R28, R29, R32) -/

namespace Sys2Proof.Machine

/-- The events of a trace other than those that carry the saved `IE` (R175, R185). -/
def quietEvents (es : List Event) : List Event := es.filter fun e => !e.isIrqOff && !e.isIrqRestore

theorem quietEvents_append (es fs : List Event) : quietEvents (es ++ fs) = quietEvents es ++ quietEvents fs :=
  List.filter_append ..

/-- The saved value stands in the two events that `quietEvents` leaves out. -/
theorem quietEvents_txEvents (sel : Sel) (hi lo : PortWord) (bytes : List Chan) (e e' : Bool) :
    quietEvents (txEvents sel hi lo bytes e) = quietEvents (txEvents sel hi lo bytes e') := by
  simp [txEvents, quietEvents, Event.isIrqOff, Event.isIrqRestore]

/-- The same block with another `IE`, another saved `IE` and another trace. -/
def withIe (v saved : Bool) (es : List Event) (s : State) : State := { s with ie := v, savedIe := saved, trace := es }

/-- Two runs that differ in `IE`, which is `v` in the second, in what was saved of it, and in the events that carry it. -/
def SameButIe (v : Bool) (s t : State) : Prop :=
  ∃ saved es, t = withIe v saved es s ∧ quietEvents es = quietEvents s.trace

/-- A piece that, with another `IE`, does the same and appends the same events but for those that carry it. -/
def IgnoresIe (f : State → State) : Prop :=
  ∀ v saved es s, ∃ saved' fs gs, f (withIe v saved es s) = withIe v saved' (es ++ fs) (f s) ∧
    (f s).trace = s.trace ++ gs ∧ quietEvents fs = quietEvents gs

theorem IgnoresIe.sameButIe {f : State → State} (hf : IgnoresIe f) {v : Bool} {s t : State} (h : SameButIe v s t) :
    SameButIe v (f s) (f t) := by
  obtain ⟨saved, es, rfl, hes⟩ := h
  obtain ⟨saved', fs, gs, hrun, htrace, hfs⟩ := hf v saved es s
  exact ⟨saved', es ++ fs, hrun, by rw [htrace, quietEvents_append, quietEvents_append, hes, hfs]⟩

theorem ignoresIe_transmitted : IgnoresIe transmitted :=
  fun v _ _ _ => ⟨v, _, _, rfl, rfl, quietEvents_txEvents ..⟩

theorem ignoresIe_counted : IgnoresIe counted :=
  fun _ saved es _ => ⟨saved, [], [], by rw [List.append_nil]; rfl, by rw [List.append_nil]; rfl, rfl⟩

/-- Every piece but the transmission leaves `IE` alone; the transmission saves and restores it. -/
theorem fullAgreement_sameButIe (v : Bool) : FullAgreement (SameButIe v) where
  status := by rintro s _ ⟨_, _, rfl, _⟩; rfl
  count := by rintro s _ ⟨_, _, rfl, _⟩; rfl
  iteration := by rintro s _ ⟨_, _, rfl, _⟩; rfl
  succeeds := by
    rintro s _ port n ⟨_, _, rfl, _⟩ _ hall
    exact hall
  fails := by
    rintro s _ port m ⟨_, _, rfl, _⟩ _ hfail
    exact hfail
  power on h := IgnoresIe.sameButIe (fun _ _ _ _ => ⟨_, _, _, rfl, rfl, rfl⟩) h
  walk port m h _ := IgnoresIe.sameButIe (f := walked port m) (fun _ _ _ _ => ⟨_, _, _, rfl, rfl, rfl⟩) h
  transmit h _ := ignoresIe_transmitted.sameButIe h
  counted h := ignoresIe_counted.sameButIe h
  respond r h := IgnoresIe.sameButIe (fun _ _ _ _ => ⟨_, _, _, rfl, rfl, rfl⟩) h
  clear h := IgnoresIe.sameButIe (fun _ _ _ _ => ⟨_, _, _, rfl, rfl, rfl⟩) h
  bind b n h := IgnoresIe.sameButIe (fun _ _ _ _ => ⟨_, _, _, rfl, rfl, rfl⟩) h

/-- Settles O55: the two runs start with the same trace and saved value, and every command keeps them together. -/
theorem interruptFlagIsOnlySavedAndRestored : Obligations.InterruptFlagIsOnlySavedAndRestored := by
  intro i s s' v h
  have hstart : SameButIe v s { s with ie := v } := ⟨s.savedIe, s.trace, rfl, rfl⟩
  obtain ⟨_, hrun, saved, es, rfl, hes⟩ := (fullAgreement_sameButIe v).exec hstart h
  exact ⟨_, hrun, rfl, rfl, rfl, hes⟩

/-- The same block with another buffer. -/
def withColors (cs : Vector Color Config.maxLeds) (s : State) : State := { s with ctx := { s.ctx with colors := cs } }

/-- Two runs that differ in the slots at and beyond `COUNT` only. -/
def SameButUnusedSlots (s t : State) : Prop :=
  ∃ cs, t = withColors cs s ∧ activeColors (withColors cs s).ctx = activeColors s.ctx

theorem activeColors_getElem? (c : Ctx) {i : Nat} (hi : i < c.count.toNat) : (activeColors c)[i]? = slot c i := by
  rw [activeColors, List.getElem?_take_of_lt hi, slot, Vector.getElem?_toList]

/-- The slots that two runs have in common. -/
theorem slot_withColors {s : State} {cs : Vector Color Config.maxLeds}
    (hactive : activeColors (withColors cs s).ctx = activeColors s.ctx) {i : Nat} (hi : i < s.ctx.count.toNat) :
    slot (withColors cs s).ctx i = slot s.ctx i := by
  rw [← activeColors_getElem? s.ctx hi, ← hactive, activeColors_getElem? (withColors cs s).ctx hi]

/-- A buffer that agrees below `COUNT` has the same active colours. -/
theorem activeColors_withColors {s : State} {cs : Vector Color Config.maxLeds}
    (h : ∀ j, j < s.ctx.count.toNat → cs[j]? = s.ctx.colors[j]?) :
    activeColors (withColors cs s).ctx = activeColors s.ctx := by
  apply List.ext_getElem?
  intro i
  simp only [activeColors, withColors, List.getElem?_take, Vector.getElem?_toList]
  split
  next hi => exact h i hi
  · rfl

/-- A walk below `COUNT` shows active colours only (R135, R145). -/
theorem walkEvents_of_active (port : CbPort) (s : State) {m : Nat} (hm : m ≤ s.ctx.count.toNat) :
    walkEvents port s m = ((activeColors s.ctx).take m).mapIdx fun i cin =>
      exchangeEvent port s (BitVec.ofNat 8 i) cin (answerAt port s i cin) := by
  rw [walkEvents, activeColors, List.take_take, Nat.min_eq_left hm]

/-- The active colours after a walk are those before it, each as its callback left it. -/
theorem activeColors_walked (port : CbPort) (m : Nat) (s : State) :
    activeColors (walked port m s).ctx =
      (activeColors s.ctx).mapIdx fun i cin => if i < m then (answerAt port s i cin).cout else cin := by
  apply List.ext_getElem?
  intro i
  simp only [activeColors, walked, walkedColors, List.getElem?_take, List.getElem?_mapIdx, Vector.getElem?_toList,
    Vector.getElem?_mapIdx]
  split <;> rfl

theorem SameButUnusedSlots.walk {s t : State} (port : CbPort) {m : Nat} (h : SameButUnusedSlots s t)
    (hm : m ≤ s.ctx.count.toNat) : SameButUnusedSlots (walked port m s) (walked port m t) := by
  obtain ⟨cs, rfl, hactive⟩ := h
  have hevents : walkEvents port (withColors cs s) m = walkEvents port s m := by
    rw [walkEvents_of_active port s hm, walkEvents_of_active port (withColors cs s) hm, hactive]
    rfl
  refine ⟨walkedColors port (withColors cs s) m, ?_, ?_⟩
  · simp only [walked, hevents]
    rfl
  · have hafter := activeColors_walked port m (withColors cs s)
    rw [hactive] at hafter
    exact hafter.trans (activeColors_walked port m s).symm

theorem SameButUnusedSlots.transmit {s t : State} (h : SameButUnusedSlots s t) :
    SameButUnusedSlots (transmitted s) (transmitted t) := by
  obtain ⟨cs, rfl, hactive⟩ := h
  have hbytes : activeBytes (withColors cs s).ctx = activeBytes s.ctx := by rw [activeBytes, hactive, activeBytes]
  refine ⟨cs, ?_, hactive⟩
  simp only [transmitted, hbytes]
  rfl

/-- What `UPDATE` and `POWER_ON` are made of reads the slots below `COUNT` only. -/
theorem agreement_sameButUnusedSlots : Agreement SameButUnusedSlots where
  status := by rintro s _ ⟨_, rfl, _⟩; rfl
  count := by rintro s _ ⟨_, rfl, _⟩; rfl
  iteration := by rintro s _ ⟨_, rfl, _⟩; rfl
  succeeds := by
    rintro s _ port n ⟨cs, rfl, hactive⟩ hn hall i cin hi hcin
    rw [slot_withColors hactive (Nat.lt_of_lt_of_le hi hn)] at hcin
    exact hall i cin hi hcin
  fails := by
    rintro s _ port m ⟨cs, rfl, hactive⟩ hm ⟨hall, cin, hcin, hres⟩
    refine ⟨fun i cin hi hcin => ?_, cin, (slot_withColors hactive hm).trans hcin, hres⟩
    rw [slot_withColors hactive (Nat.lt_trans hi hm)] at hcin
    exact hall i cin hi hcin
  power := by rintro s _ on ⟨cs, rfl, hactive⟩; exact ⟨cs, rfl, hactive⟩
  walk port m h hm := h.walk port hm
  transmit h _ := h.transmit
  counted := by rintro s _ ⟨cs, rfl, hactive⟩; exact ⟨cs, rfl, hactive⟩
  respond := by rintro s _ r ⟨cs, rfl, hactive⟩; exact ⟨cs, rfl, hactive⟩

/-- The two commands, run on other unused slots, end with the same response in states that differ in those only. -/
theorem sameButUnusedSlots_exec {i : Instr} {s t s' : State} (hi : ∃ ucb, i = .update ucb ∨ i = .powerOn ucb)
    (h : SameButUnusedSlots s t) (he : exec i s = .next s') : ∃ t', exec i t = .next t' ∧ SameButUnusedSlots s' t' := by
  have A := agreement_sameButUnusedSlots
  obtain ⟨ucb, rfl | rfl⟩ := hi <;> obtain ⟨r, s₁, ho, rfl⟩ := respond_eq_next he
  · obtain ⟨t₁, ht, hR⟩ := A.opUpdate h ho
    exact ⟨responded r t₁, congrArg respond ht, A.respond r hR⟩
  · obtain ⟨t₁, ht, hR⟩ := A.opPowerOn h ho
    exact ⟨responded r t₁, congrArg respond ht, A.respond r hR⟩

/-- Settles O56: the two runs start with the same active colours, and both commands keep them together. -/
theorem updateAndPowerOnReadNoUnusedSlot : Obligations.UpdateAndPowerOnReadNoUnusedSlot := by
  intro i s s' cs hi _ hcs h
  have hstart : SameButUnusedSlots s (withColors cs s) := ⟨cs, rfl, activeColors_withColors hcs⟩
  obtain ⟨_, hrun, _, rfl, hactive⟩ := sameButUnusedSlots_exec hi hstart h
  exact ⟨_, hrun, rfl, rfl, hactive⟩

end Sys2Proof.Machine

/-! ## The order of the bits of a frame (20_memory R61, R63) -/

namespace Sys2Proof.Machine

/-- The bits of a frame in wire order: those of the active bytes, one byte after the other (R63). -/
def frameBits (c : Ctx) : List Bool := (activeBytes c).flatMap wireBits

theorem encFrame_activeColors (c : Ctx) :
    encFrame (activeColors c) = extendLast [.reset] ((frameBits c).flatMap pulse) := by
  rw [encFrame, frameBits, activeBytes, List.flatMap_assoc, List.flatMap_assoc]
  rfl

@[simp] theorem wireBits_length (v : Chan) : (wireBits v).length = 8 := rfl

/-- Most-significant bit first (R63). -/
theorem wireBits_getElem? (v : Chan) {j : Nat} (hj : j < 8) : (wireBits v)[j]? = some (v.getLsbD (7 - j)) := by
  have hmsb : ∀ j < 8, msbFirst[j]? = some (7 - j) := by decide
  rw [wireBits, List.getElem?_map, hmsb j hj, Option.map_some]

theorem flatMap_wireBits_length (bs : List Chan) : (bs.flatMap wireBits).length = 8 * bs.length := by
  induction bs with
  | nil => rfl
  | cons b bs ih => rw [List.flatMap_cons, List.length_append, ih, wireBits_length, List.length_cons]; omega

theorem frameBits_length (c : Ctx) (h : c.count.toNat ≤ Config.maxLeds) :
    (frameBits c).length = 24 * c.count.toNat := by
  rw [frameBits, flatMap_wireBits_length, activeBytes_length c h, byteCount]
  omega

/-- Eight bits to a byte: bit `n` of a byte sequence is in byte `n div 8` (R63). -/
theorem flatMap_wireBits_getElem? (bs : List Chan) (n : Nat) :
    (bs.flatMap wireBits)[n]? = (bs[n / 8]?).map (·.getLsbD (7 - n % 8)) := by
  induction bs generalizing n with
  | nil => simp
  | cons b bs ih =>
    rw [List.flatMap_cons]
    by_cases h : n < 8
    · rw [List.getElem?_append_left h, wireBits_getElem? b h, Nat.div_eq_of_lt h, Nat.mod_eq_of_lt h]
      rfl
    · obtain ⟨m, rfl⟩ : ∃ m, n = m + 8 := ⟨n - 8, by omega⟩
      rw [List.getElem?_append_right (Nat.le_of_not_lt h), wireBits_length, Nat.add_sub_cancel, ih,
        Nat.add_div_right m (by decide), Nat.add_mod_right, List.getElem?_cons_succ]

theorem frameBits_getElem? (c : Ctx) {n : Nat} (hn : n < 24 * c.count.toNat) : (frameBits c)[n]? = frameBit c n := by
  have hbyte : n / 8 < byteCount c := by unfold byteCount; omega
  rw [frameBits, flatMap_wireBits_getElem?, activeBytes_getElem? c _ hbyte, frameBit]

/-- Bit `j` of channel `ch` of LED `i`, in wire order (R61, R63). -/
theorem frameBit_channel {c : Ctx} {i ch j : Nat} {v : Color} (hv : slot c i = some v) (hch : ch < 3) (hj : j < 8) :
    frameBit c (24 * i + 8 * ch + j) = some ((channel v ch).getLsbD (7 - j)) := by
  have hled : (24 * i + 8 * ch + j) / 8 / 3 = i := by omega
  have hchan : (24 * i + 8 * ch + j) / 8 % 3 = ch := by omega
  have hbit : (24 * i + 8 * ch + j) % 8 = j := by omega
  rw [frameBit, bufferByte, hled, hchan, hbit, hv, Option.map_some, Option.map_some]

/-- Settles O32: the bits are those of the active bytes, and every position is in one channel of one active LED. -/
theorem frameBitsByPosition : Obligations.FrameBitsByPosition := by
  intro c hcount
  refine ⟨frameBits c, encFrame_activeColors c, frameBits_length c hcount, fun n hn => frameBits_getElem? c hn,
    fun i hi => ?_⟩
  have hv := slot_isSome c i (Nat.lt_of_lt_of_le hi hcount)
  have hbit : ∀ ch j, ch < 3 → j < 8 →
      (frameBits c)[24 * i + 8 * ch + j]? = some ((channel c.colors[i] ch).getLsbD (7 - j)) := by
    intro ch j hch hj
    rw [frameBits_getElem? c (by omega), frameBit_channel hv hch hj]
  exact ⟨_, hv, fun j hj =>
    ⟨hbit 0 j (by decide) hj, hbit 1 j (by decide) hj, hbit 2 j (by decide) hj⟩⟩

end Sys2Proof.Machine

/-! ## No step from a well-formed state faults (20_memory R67, 40_device_ops R146) -/

namespace Sys2Proof.Machine

/-- A run that started in `s` does not fault, and is refused only for the count at the largest iteration (R67, R146). -/
def StopsOnlyAtMaximum {α : Type} (s : State) (o : Host.Outcome α Fault Refusal) : Prop :=
  (∃ a, o = .next a) ∨ (o = .refused .iterationAtMaximum ∧ s.ctx.iteration = iterationMax)

theorem StopsOnlyAtMaximum.ne_fault {α : Type} {s : State} {o : Host.Outcome α Fault Refusal}
    (h : StopsOnlyAtMaximum s o) (r : Fault) : o ≠ .fault r := by
  rcases h with ⟨a, rfl⟩ | ⟨rfl, _⟩ <;> nofun

theorem StopsOnlyAtMaximum.of_refused {α : Type} {s : State} {r : Refusal}
    (h : StopsOnlyAtMaximum (α := α) s (.refused r)) :
    r = .iterationAtMaximum ∧ s.ctx.iteration = iterationMax := by
  rcases h with ⟨a, ha⟩ | ⟨hr, hit⟩
  · cases ha
  · exact ⟨Host.Outcome.refused.inj hr, hit⟩

theorem Completes.stopsOnlyAtMaximum {o : OpOutcome} (h : Completes o) (s : State) : StopsOnlyAtMaximum s o := by
  obtain ⟨r, s', rfl⟩ := h
  exact .inl ⟨_, rfl⟩

theorem StopsOnlyAtMaximum.respond {s : State} {o : OpOutcome} (h : StopsOnlyAtMaximum s o) :
    StopsOnlyAtMaximum s (respond o) := by
  rcases h with ⟨a, rfl⟩ | ⟨rfl, hit⟩
  · exact .inl ⟨_, rfl⟩
  · exact .inr ⟨rfl, hit⟩

/-- The count is refused at the largest iteration only (R146). -/
theorem countUpdate_stopsOnlyAtMaximum (s : State) : StopsOnlyAtMaximum s (countUpdate s) := by
  by_cases hit : s.ctx.iteration = iterationMax
  · exact .inr ⟨countUpdate_max hit, hit⟩
  · exact .inl ⟨_, countUpdate_below hit⟩

/-- `UPDATE` ends at a check or at a failing callback, or comes to its count with the iteration it started at (R143). -/
theorem opUpdate_stopsOnlyAtMaximum {s : State} (ucb : CbArg) (hcount : isInitialized s = true → CountOk s.ctx.count) :
    StopsOnlyAtMaximum s (opUpdate ucb s) := by
  cases hc : poweredCheck s with
  | some r =>
    rw [opUpdate, hc]
    exact .inl ⟨_, rfl⟩
  | none =>
    obtain ⟨hI, hP⟩ := poweredCheck_eq_none.mp hc
    obtain ⟨hpos, hle⟩ := hcount hI
    rcases optionalWalk_cases .update ucb s.ctx.count s hle with ⟨hcb, _⟩ | ⟨rfl, m, hm, hf, _⟩
    · rw [opUpdate_callbackSucceeds hI hP hpos hle hcb]
      exact countUpdate_stopsOnlyAtMaximum (transmitted (walked .update (requests ucb s.ctx.count) s))
    · rw [opUpdate_callbackFails hI hP hm hf]
      exact .inl ⟨_, rfl⟩

theorem opPowerOn_stopsOnlyAtMaximum {s : State} (ucb : CbArg) (hcount : isInitialized s = true → CountOk s.ctx.count) :
    StopsOnlyAtMaximum s (opPowerOn ucb s) := by
  cases hc : unpoweredCheck s with
  | some r =>
    rw [opPowerOn, hc]
    exact .inl ⟨_, rfl⟩
  | none =>
    obtain ⟨hI, hP⟩ := unpoweredCheck_eq_none.mp hc
    rw [opPowerOn_off ucb hI hP]
    exact opUpdate_stopsOnlyAtMaximum (s := powerSwitched true s) ucb hcount

/-- Only `UPDATE` and `POWER_ON` can come to the count at the largest iteration: `INIT` counts from zero (R133). -/
theorem exec_stopsOnlyAtMaximum (i : Instr) {s : State} (hinv : s.Inv) : StopsOnlyAtMaximum s (exec i s) := by
  cases i with
  | init b n icb pwr ucb => exact ((opInit_completes b n icb pwr ucb hinv).stopsOnlyAtMaximum s).respond
  | powerOn ucb => exact (opPowerOn_stopsOnlyAtMaximum ucb hinv.countOk).respond
  | powerOff => exact ((opPowerOff_completes s).stopsOnlyAtMaximum s).respond
  | update ucb => exact (opUpdate_stopsOnlyAtMaximum ucb hinv.countOk).respond
  | uninit => exact ((opUninit_completes s).stopsOnlyAtMaximum s).respond

theorem performWord_stopsOnlyAtMaximum (w : CmdWord) {s : State} (hinv : s.Inv) :
    StopsOnlyAtMaximum s (performWord w s) := by
  unfold performWord
  cases decode w with
  | command i => exact exec_stopsOnlyAtMaximum i hinv
  | illegal why => exact .inl ⟨_, rfl⟩

/-- A well-formed block is idle: it waits, takes the host's setting of `IE`, or performs a word (R12, R32, R252). -/
theorem step_stopsOnlyAtMaximum {s : State} (hinv : s.Inv) : StopsOnlyAtMaximum s (step s) := by
  cases hin : s.inputs with
  | nil => exact .inl ⟨s, by simp only [step, takeInput, hinv.idle, hin]⟩
  | cons input rest =>
    cases input with
    | command w =>
      rw [step_of_command hinv.idle hin]
      have hinv' : { s with inputs := rest }.Inv := hinv.of_ctx_eq rfl hinv.idle
      exact performWord_stopsOnlyAtMaximum w hinv'
    | setIe v => exact .inl ⟨_, by simp only [step, takeInput, hinv.idle, hin]; rfl⟩

/-- Settles O46: a well-formed block is idle, so its step waits, sets `IE`, or performs a word within the buffer. -/
theorem stepNeverFaults : Obligations.StepNeverFaults := by
  intro s hinv
  have h := step_stopsOnlyAtMaximum hinv
  exact ⟨h.ne_fault, fun r hr => (hr ▸ h).of_refused⟩

end Sys2Proof.Machine

/-! ## The decoder is the inverse of the encoder (30_encoding R91 to R94) -/

namespace Sys2Proof

/-- The command of a command's own fields is the command (R92, R93). -/
theorem command_fields (i : Instr) : i.fields.command = some i := by
  cases i with
  | init b n icb pwr ucb => simp [Instr.fields, Fields.command, Fields.binding]
  | powerOn ucb | update ucb => simp [Instr.fields, Fields.ofOp, Fields.command]
  | powerOff | uninit => rfl

/-- Decoding the word of any command gives the command back. -/
theorem decode_encode (i : Instr) : decode (encode i) = .command i := by
  rw [decode_eq_command_iff, fieldsOf_encode]
  exact ⟨fields_wf i, command_fields i⟩

/-- Settles O2: the encoder's word has the command's fields, which are well formed and have the command's opcode. -/
theorem decodeEncodeRoundTrip : Obligations.DecodeEncodeRoundTrip := decode_encode

/-- The three checks of R95, passed together. -/
theorem illegal_eq_none_iff (f : Fields) :
    f.illegal = none ↔ f.reservedZero = true ∧ f.unusedZero = some true := by
  unfold Fields.illegal
  cases f.unusedZero with
  | none => simp
  | some unused => cases f.reservedZero <;> cases unused <;> simp

theorem reservedZero_iff (f : Fields) : f.reservedZero = true ↔ f.rsv1 = 0 ∧ f.rsv0 = 0 := by
  simp [Fields.reservedZero]

/-- With the reserved fields zero, only `OP` and `UCB` are left to choose (R94). -/
theorem onlyUcb_iff {f : Fields} (hres : f.reservedZero = true) :
    f.onlyUcb = true ↔ f = { Fields.ofOp f.op with ucb := f.ucb } := by
  obtain ⟨hrsv1, hrsv0⟩ := (reservedZero_iff f).mp hres
  obtain ⟨portSel, ddrSel, rsv1, pwrPin, dataPin, count, rsv0, pwr, ucb, icb, op⟩ := f
  subst hrsv1 hrsv0
  simp [Fields.onlyUcb, Fields.ofOp, and_assoc]

/-- With the reserved fields zero, only `OP` is left to choose (R94). -/
theorem onlyOp_iff {f : Fields} (hres : f.reservedZero = true) : f.onlyOp = true ↔ f = Fields.ofOp f.op := by
  rw [Fields.onlyOp, Bool.and_eq_true, onlyUcb_iff hres]
  constructor
  · rintro ⟨hf, hucb⟩
    rw [hf]
    simpa [Fields.ofOp] using hucb
  · intro hf
    rw [hf]
    simp [Fields.ofOp]

/-- With the reserved fields zero and the opcode of `INIT`, every other field is an operand of `INIT` (R92). -/
theorem fields_init_eq {f : Fields} (hop : f.op = 1) (hres : f.reservedZero = true) :
    (Instr.init f.binding f.count (cbArgOf f.icb) f.pwr (cbArgOf f.ucb)).fields = f := by
  obtain ⟨hrsv1, hrsv0⟩ := (reservedZero_iff f).mp hres
  cases f
  subst hop hrsv1 hrsv0
  simp [Instr.fields, Fields.binding]

/-- The fields of a word that is a command are those its command encodes to: none of them is left open (R94). -/
theorem fields_of_command {f : Fields} {i : Instr} (hwf : f.illegal = none) (hcmd : f.command = some i) :
    i.fields = f := by
  obtain ⟨hres, hunused⟩ := (illegal_eq_none_iff f).mp hwf
  unfold Fields.command at hcmd
  unfold Fields.unusedZero at hunused
  split at hcmd <;> rename_i hop <;> simp only [hop, Option.some.injEq, reduceCtorEq] at hcmd hunused <;> subst hcmd
  · exact fields_init_eq (BitVec.eq_of_toNat_eq hop) hres
  · rw [(onlyUcb_iff hres).mp hunused, show f.op = 2 from BitVec.eq_of_toNat_eq hop]
    simp [Instr.fields]
  · rw [(onlyOp_iff hres).mp hunused, show f.op = 3 from BitVec.eq_of_toNat_eq hop]
    rfl
  · rw [(onlyUcb_iff hres).mp hunused, show f.op = 4 from BitVec.eq_of_toNat_eq hop]
    simp [Instr.fields]
  · rw [(onlyOp_iff hres).mp hunused, show f.op = 5 from BitVec.eq_of_toNat_eq hop]
    rfl

/-- Decoding and encoding are inverse to each other: a word is a command exactly when it is that command's word. -/
theorem decode_eq_command_iff_encode (w : CmdWord) (i : Instr) : decode w = .command i ↔ encode i = w := by
  constructor
  · intro h
    obtain ⟨hwf, hcmd⟩ := (decode_eq_command_iff w i).mp h
    rw [encode, fields_of_command hwf hcmd, word_fieldsOf]
  · rintro rfl
    exact decode_encode i

/-- Settles O3: the fields of the word are those of the command, and the fields determine the word. -/
theorem eachCommandHasOneWord : Obligations.EachCommandHasOneWord :=
  fun w i => (decode_eq_command_iff_encode w i).mp

end Sys2Proof

/-! ## The rows of the opcode table (30_encoding R92 to R96) -/

namespace Sys2Proof

theorem Row.selects_iff (r : Row) (w : CmdWord) : r.selects w = true ↔ w &&& r.mask = r.pattern := by
  simp [Row.selects]

/-- The table of R94 is the rows of the commands. -/
theorem mem_opcodeRows_iff (r : Row) : r ∈ opcodeRows ↔ ∃ i : Instr, i.row = r := by
  constructor
  · intro h
    simp only [opcodeRows, List.mem_cons, List.not_mem_nil, or_false] at h
    rcases h with rfl | rfl | rfl | rfl | rfl <;> exact ⟨_, rfl⟩
  · rintro ⟨i, rfl⟩
    cases i <;> simp [opcodeRows, Instr.row]

/-- The command of the same row whose operands are read from the given fields (R92). -/
def Instr.withOperandsOf (f : Fields) : Instr → Instr
  | .init .. => .init f.binding f.count (cbArgOf f.icb) f.pwr (cbArgOf f.ucb)
  | .powerOn _ => .powerOn (cbArgOf f.ucb)
  | .powerOff => .powerOff
  | .update _ => .update (cbArgOf f.ucb)
  | .uninit => .uninit

@[simp] theorem row_withOperandsOf (f : Fields) (i : Instr) : (i.withOperandsOf f).row = i.row := by
  cases i <;> rfl

/-- The word of a command selects the command's row (R94). -/
theorem row_selects_encode (i : Instr) : i.row.selects (encode i) = true := by
  cases i with
  | init b n icb pwr ucb => exact Laws.RowMatch.init b n icb pwr ucb
  | powerOn ucb => exact Laws.RowMatch.powerOn ucb
  | powerOff => exact Laws.RowMatch.powerOff
  | update ucb => exact Laws.RowMatch.update ucb
  | uninit => exact Laws.RowMatch.uninit

/-- The mask of `POWER_ON` and of `UPDATE` leaves only bit 4 open, the `UCB` bit (R94). -/
theorem eq_of_and_ucbMask {w p : CmdWord} (h : w &&& 0xFFFFFFEF#32 = p) :
    w = p ||| (if w.getLsbD 4 then 0x10#32 else 0#32) := by
  have hucb : w &&& 0x10#32 = if w.getLsbD 4 then 0x10#32 else 0#32 := BitVec.and_twoPow w 4
  rw [← h, ← hucb, ← BitVec.and_or_distrib_left]
  exact BitVec.and_allOnes.symm

/-- The mask of `INIT` covers the opcode and the reserved fields (R94). -/
theorem fieldsOf_of_initMask {w : CmdWord} (h : w &&& 0x00C000C7#32 = 0x00000001#32) :
    (fieldsOf w).op = 1 ∧ (fieldsOf w).reservedZero = true := by
  have hmasked (start len : Nat) (hcovers : (0x00C000C7#32).extractLsb' start len = BitVec.allOnes len) :
      w.extractLsb' start len = (0x00000001#32).extractLsb' start len := by
    rw [← h, BitVec.extractLsb'_and, hcovers, BitVec.and_allOnes]
  exact ⟨hmasked 0 3 rfl, (reservedZero_iff _).mpr ⟨hmasked 22 2 rfl, hmasked 6 2 rfl⟩⟩

/-- A word that selects the row of a command is the command of that row with the operands in its fields: the mask covers
every bit that is not an operand (R92, R94). -/
theorem decode_of_and_mask (i : Instr) {w : CmdWord} (h : w &&& i.row.mask = i.row.pattern) :
    decode w = .command (i.withOperandsOf (fieldsOf w)) := by
  rw [decode_eq_command_iff_encode]
  cases i with
  | init b n icb pwr ucb =>
    simp only [Instr.row] at h
    obtain ⟨hop, hres⟩ := fieldsOf_of_initMask h
    rw [Instr.withOperandsOf, encode, fields_init_eq hop hres, word_fieldsOf]
  | powerOn _ | update _ =>
    simp only [Instr.row] at h
    have hw := eq_of_and_ucbMask h
    have hucb : (fieldsOf w).ucb = w.getLsbD 4 := rfl
    rw [Instr.withOperandsOf, hucb]
    generalize w.getLsbD 4 = v at hw ⊢
    rw [hw]
    cases v <;> rfl
  | powerOff | uninit =>
    rw [BitVec.and_allOnes.symm.trans h]
    rfl

/-- A word that is a command selects the command's row (R94). -/
theorem and_mask_of_decode {i : Instr} {w : CmdWord} (h : decode w = .command i) :
    w &&& i.row.mask = i.row.pattern := by
  rw [← Row.selects_iff, ← (decode_eq_command_iff_encode w i).mp h]
  exact row_selects_encode i

/-- A word is a command of a row, with some operands, exactly when it selects the row (R94). -/
theorem exists_decode_iff_row_selects (r : Row) (w : CmdWord) :
    (∃ i : Instr, i.row = r ∧ decode w = .command i) ↔ r ∈ opcodeRows ∧ r.selects w = true := by
  rw [mem_opcodeRows_iff, Row.selects_iff]
  constructor
  · rintro ⟨i, rfl, h⟩
    exact ⟨⟨i, rfl⟩, and_mask_of_decode h⟩
  · rintro ⟨⟨i, rfl⟩, h⟩
    exact ⟨_, row_withOperandsOf _ i, decode_of_and_mask i h⟩

/-- Settles O6: each clause is the row of one command, with the operands in the fields of the word. -/
theorem operandsAreReadFromTheirBits : Obligations.OperandsAreReadFromTheirBits := fun _ =>
  ⟨decode_of_and_mask (.init default 0 .absent false .absent), decode_of_and_mask (.powerOn .absent),
    decode_of_and_mask (.update .absent)⟩

/-- Settles O4: a word of a command selects the command's row, and a word that selects a row is its command. -/
theorem wordsSelectTheirRow : Obligations.WordsSelectTheirRow := fun _ =>
  ⟨⟨fun ⟨_, _, _, _, _, h⟩ => and_mask_of_decode h,
      fun h => ⟨_, _, _, _, _, decode_of_and_mask (.init default 0 .absent false .absent) h⟩⟩,
    ⟨fun ⟨_, h⟩ => and_mask_of_decode h, fun h => ⟨_, decode_of_and_mask (.powerOn .absent) h⟩⟩,
    ⟨and_mask_of_decode, decode_of_and_mask .powerOff⟩,
    ⟨fun ⟨_, h⟩ => and_mask_of_decode h, fun h => ⟨_, decode_of_and_mask (.update .absent) h⟩⟩,
    ⟨and_mask_of_decode, decode_of_and_mask .uninit⟩⟩

/-- A word is illegal exactly when it is no command. -/
theorem decode_illegal_iff (w : CmdWord) : (∃ why, decode w = .illegal why) ↔ ¬∃ i, decode w = .command i := by
  cases decode w <;> simp

/-- A word is a command exactly when it selects a row of the table (R96). -/
theorem decode_command_iff (w : CmdWord) :
    (∃ i, decode w = .command i) ↔ ∃ r ∈ opcodeRows, r.selects w = true := by
  constructor
  · rintro ⟨i, h⟩
    exact ⟨i.row, (exists_decode_iff_row_selects i.row w).mp ⟨i, rfl, h⟩⟩
  · rintro ⟨r, h⟩
    obtain ⟨i, -, hi⟩ := (exists_decode_iff_row_selects r w).mpr h
    exact ⟨i, hi⟩

/-- A word is illegal exactly when it selects no row of the table (R95, R96). -/
theorem decode_illegal_iff_no_row (w : CmdWord) :
    (∃ why, decode w = .illegal why) ↔ ∀ r ∈ opcodeRows, r.selects w = false := by
  rw [decode_illegal_iff, decode_command_iff]
  simp

/-- Settles O5: selecting a row is decoding to its command, and a word decodes to one command at most. -/
theorem everyWordIsOneCommandOrIllegal : Obligations.EveryWordIsOneCommandOrIllegal := by
  refine fun w => ⟨decode_illegal_iff_no_row w, decode_command_iff w, fun r hr r' hr' h h' => ?_⟩
  obtain ⟨i, rfl, hi⟩ := (exists_decode_iff_row_selects r w).mpr ⟨hr, h⟩
  obtain ⟨i', rfl, hi'⟩ := (exists_decode_iff_row_selects r' w).mpr ⟨hr', h'⟩
  rw [Decoded.command.inj (hi.symm.trans hi')]

/-- Settles O1: each word is decoded. -/
theorem writtenWordsDecode : Obligations.WrittenWordsDecode := by
  unfold Obligations.WrittenWordsDecode
  decide

end Sys2Proof

namespace Sys2Proof.Machine

theorem performWord_of_illegal {w : CmdWord} {why : Illegal} (h : decode w = .illegal why) (s : State) :
    performWord w s = illegalWord s := by
  simp only [performWord, h]

/-- Settles O8: a word that selects no row is illegal, and one that selects the row of `INIT` is an `INIT`. -/
theorem illegalWordOnlyResponds : Obligations.IllegalWordOnlyResponds := by
  refine ⟨fun s w rest hidle hnext hrows => ?_, fun w n hmask hn => ?_⟩
  · obtain ⟨why, hw⟩ := (decode_illegal_iff_no_row w).mpr hrows
    rw [step_of_command hidle hnext, performWord_of_illegal hw]
    rfl
  · subst hn
    exact ⟨_, _, _, _, (operandsAreReadFromTheirBits w).1 hmask⟩

end Sys2Proof.Machine

/-! ## The waveform of a transmission (30_encoding R101 to R104, 41_protocol_encoder R193) -/

namespace Sys2Proof.Machine

/-- The delays of the high stretch of a bit-pulse (R101). -/
def highStretch (v : Bool) : List DelayLabel := if v then [.phaseA, .phaseB] else [.phaseA]

/-- The delays of the low stretch of a bit-pulse (R101). -/
def lowStretch (v : Bool) : List DelayLabel := if v then [.phaseC] else [.phaseB, .phaseC]

theorem pulse_eq (v : Bool) : pulse v = [⟨true, highStretch v⟩, ⟨false, lowStretch v⟩] := by cases v <;> rfl

/-- Settles O34: the two pulses are their high and their low stretch, and the total does not depend on the bit. -/
theorem bitValueIsTheHighTime : Obligations.BitValueIsTheHighTime := by
  refine ⟨rfl, rfl, fun v => ⟨_, _, pulse_eq v, ?_, ?_⟩, Nat.succ_pos _, rfl, rfl⟩
  · cases v <;> simp [highStretch, lowStretch, Nat.add_assoc]
  · cases v <;> simp [highStretch]

section Projection
variable {sel : Sel} {p : Pin} {hi lo : PortWord} (hhi : pinBit hi p = true) (hlo : pinBit lo p = false)
include hhi hlo

/-- The scan over one bit-pulse that starts low: the low segment ends, and the pulse's own two follow, the second still
open (R180 to R182, R193). -/
theorem waveFrom_pulseEvents (v : Bool) (ds : List DelayLabel) (es : List Event) :
    waveFrom sel p ⟨false, ds⟩ (pulseEvents sel hi lo v ++ es) =
      ⟨false, ds⟩ :: ⟨true, highStretch v⟩ :: waveFrom sel p ⟨false, lowStretch v⟩ es := by
  cases v <;> simp [pulseEvents, waveFrom, hhi, hlo, highStretch, lowStretch]

/-- The scan over the bit-pulses of a frame and the latch, which lengthens the last low segment (R184, R193). -/
theorem waveFrom_frameEvents (bits : List Bool) (e : Bool) (ds : List DelayLabel) :
    waveFrom sel p ⟨false, ds⟩
        (bits.flatMap (pulseEvents sel hi lo) ++ [.wrPort sel lo, .delay .reset, .irqRestore e]) =
      extendLast [.reset] (⟨false, ds⟩ :: bits.flatMap pulse) := by
  induction bits generalizing ds with
  | nil => simp [waveFrom, hlo, extendLast]
  | cons v bits ih =>
    rw [List.flatMap_cons, List.flatMap_cons, List.append_assoc, waveFrom_pulseEvents hhi hlo, ih, pulse_eq]
    rfl

/-- The projection of a whole frame with at least one bit: its wire encoding, the empty low segment before it dropped
(R104, R193). -/
theorem wave_txEvents {bytes : List Chan} (e : Bool) (hbits : bytes.flatMap wireBits ≠ []) :
    wave (txEvents sel hi lo bytes e) sel p false =
      extendLast [.reset] ((bytes.flatMap wireBits).flatMap pulse) := by
  have hevents : txEvents sel hi lo bytes e = .irqOff e ::
      ((bytes.flatMap wireBits).flatMap (pulseEvents sel hi lo) ++ [.wrPort sel lo, .delay .reset, .irqRestore e]) := by
    rw [List.flatMap_assoc]
    rfl
  rw [wave, hevents, waveFrom, waveFrom_frameEvents hhi hlo]
  obtain ⟨v, bits, hv⟩ := List.exists_cons_of_ne_nil hbits
  rw [hv, List.flatMap_cons, pulse_eq]
  rfl

end Projection

/-- Settles O31: a transmission appends the events of its frame, whose projection is the frame's wire encoding. -/
theorem transmitWaveIsTheFrame : Obligations.TransmitWaveIsTheFrame := by
  intro s hI hP hcount _
  obtain ⟨hpos, hle⟩ := hcount
  have hcheck : transmitCheck s = none := transmitCheck_eq_none.mpr ⟨hI, hP, byteCount_ne_zero hpos⟩
  have hbits : frameBits s.ctx ≠ [] := by
    rw [← List.length_pos_iff, frameBits_length _ hle]
    omega
  refine ⟨transmitted s, _, opTransmit_eq s hcheck hle, rfl, ?_⟩
  rw [wave_txEvents (by simp [pinBit_withPin]) (by simp [pinBit_withoutPin]) s.ie hbits, encFrame_activeColors,
    frameBits]

end Sys2Proof.Machine

/-! ## The two lines at rest, kept by every step (40_device_ops R152) -/

namespace Sys2Proof.Machine

/-- The lines at rest, read off the bits of the two bound registers (R31). -/
theorem linesAtRest_iff (s : State) :
    s.LinesAtRest ↔
      (isInitialized s = true → s.ctx.binding.ddr ≠ s.ctx.binding.port → s.ctx.binding.pwr ≠ s.ctx.binding.data →
        (pinBit (boundDdr s) s.ctx.binding.data = true ∧ pinBit (boundPort s) s.ctx.binding.data = false) ∧
        pinBit (boundDdr s) s.ctx.binding.pwr = true ∧ pinBit (boundPort s) s.ctx.binding.pwr = isPoweredOn s) := by
  unfold State.LinesAtRest pinLevel
  cases isPoweredOn s <;> simp [levelOf_eq_low, levelOf_eq_high]

/-! What rests on the flags, the binding and the registers alone rests through every change of the rest. -/

theorem linesAtRest_walked (port : CbPort) (m : Nat) (s : State) :
    (walked port m s).LinesAtRest ↔ s.LinesAtRest := Iff.rfl

theorem linesAtRest_counted (s : State) : (counted s).LinesAtRest ↔ s.LinesAtRest := Iff.rfl

theorem linesAtRest_responded (r : Result) (s : State) : (responded r s).LinesAtRest ↔ s.LinesAtRest := Iff.rfl

/-- An unbound block has no lines. -/
theorem linesAtRest_of_unbound {s : State} (h : isInitialized s = false) : s.LinesAtRest :=
  fun hI => by rw [h] at hI; cases hI

theorem boundPort_powerSwitched (on : Bool) (s : State) :
    boundPort (powerSwitched on s) =
      if on then withPin (boundPort s) s.ctx.binding.pwr else withoutPin (boundPort s) s.ctx.binding.pwr :=
  (gpioRead_powerSwitched on s s.ctx.binding.port).trans (if_pos rfl)

theorem boundDdr_powerSwitched (on : Bool) {s : State} (h : s.ctx.binding.ddr ≠ s.ctx.binding.port) :
    boundDdr (powerSwitched on s) = boundDdr s :=
  (gpioRead_powerSwitched on s s.ctx.binding.ddr).trans (if_neg h)

theorem boundPort_transmitted (s : State) :
    boundPort (transmitted s) = withoutPin (boundPort s) s.ctx.binding.data :=
  (gpioRead_transmitted s s.ctx.binding.port).trans (if_pos rfl)

theorem boundDdr_transmitted {s : State} (h : s.ctx.binding.ddr ≠ s.ctx.binding.port) :
    boundDdr (transmitted s) = boundDdr s :=
  (gpioRead_transmitted s s.ctx.binding.ddr).trans (if_neg h)

theorem boundPort_bound (b : Binding) (n : LedCount) (s : State) : boundPort (bound b n s) = 0 :=
  (gpioRead_bound b n s b.port).trans (if_pos rfl)

theorem boundDdr_bound {b : Binding} (n : LedCount) (s : State) (h : b.ddr ≠ b.port) :
    boundDdr (bound b n s) = withPin (withPin (gpioRead s b.ddr) b.pwr) b.data :=
  (gpioRead_bound b n s b.ddr).trans ((if_neg h).trans (if_pos rfl))

@[simp] theorem powerSwitched_binding (on : Bool) (s : State) :
    (powerSwitched on s).ctx.binding = s.ctx.binding := rfl
@[simp] theorem powerSwitched_isPoweredOn (on : Bool) (s : State) : isPoweredOn (powerSwitched on s) = on := rfl
@[simp] theorem transmitted_binding (s : State) : (transmitted s).ctx.binding = s.ctx.binding := rfl
@[simp] theorem transmitted_isPoweredOn (s : State) : isPoweredOn (transmitted s) = isPoweredOn s := rfl
@[simp] theorem bound_binding (b : Binding) (n : LedCount) (s : State) : (bound b n s).ctx.binding = b := rfl
@[simp] theorem bound_isPoweredOn (b : Binding) (n : LedCount) (s : State) :
    isPoweredOn (bound b n s) = isPoweredOn s := rfl

/-- A power switch moves the power-enable pin with `STATUS.P`, and leaves the data pin (R137, R140). -/
theorem linesAtRest_powerSwitched (on : Bool) {s : State} (h : s.LinesAtRest) : (powerSwitched on s).LinesAtRest := by
  rw [linesAtRest_iff] at h ⊢
  simp only [powerSwitched_binding, powerSwitched_isPoweredOn, boundPort_powerSwitched]
  intro hI hsel hpin
  obtain ⟨⟨hdata, hlow⟩, hpwr, _⟩ := h hI hsel hpin
  rw [boundDdr_powerSwitched on hsel]
  refine ⟨⟨hdata, ?_⟩, hpwr, ?_⟩
  · cases on <;> simp [pinBit_withPin, pinBit_withoutPin, hlow, hpin.symm]
  · cases on <;> simp [pinBit_withPin, pinBit_withoutPin]

/-- A transmission ends with the data pin low, and leaves the power-enable pin (R184). -/
theorem linesAtRest_transmitted {s : State} (h : s.LinesAtRest) : (transmitted s).LinesAtRest := by
  rw [linesAtRest_iff] at h ⊢
  simp only [transmitted_binding, transmitted_isPoweredOn, boundPort_transmitted]
  intro hI hsel hpin
  obtain ⟨⟨hdata, _⟩, hpwr, hlevel⟩ := h hI hsel hpin
  rw [boundDdr_transmitted hsel]
  refine ⟨⟨hdata, ?_⟩, hpwr, ?_⟩
  · simp [pinBit_withoutPin]
  · simp [pinBit_withoutPin, hpin, hlevel]

/-- Binding makes both pins outputs and drives both low (R134). -/
theorem linesAtRest_bound (b : Binding) (n : LedCount) {s : State} (hP : isPoweredOn s = false) :
    (bound b n s).LinesAtRest := by
  rw [linesAtRest_iff]
  simp only [bound_binding, bound_isPoweredOn, boundPort_bound, hP]
  intro _ hsel _
  rw [boundDdr_bound n s hsel]
  refine ⟨⟨?_, pinBit_zero _⟩, ?_, pinBit_zero _⟩
  · simp [pinBit_withPin]
  · simp [pinBit_withPin]

/-- `UNINIT` of an initialized context leaves the zero context (R149). -/
theorem beforeBinding_ctx_of_initialized {s : State} (hI : isInitialized s = true) :
    (beforeBinding s).ctx = Ctx.zero := by
  obtain ⟨hI', _⟩ | ⟨_, _, hs⟩ := opUninit_eq_next (opUninit_eq_beforeBinding hI)
  · rw [hI] at hI'
    cases hI'
  · rw [hs]
    rfl

/-- Nothing is powered on where `INIT` binds (R133): the context was unbound, or `UNINIT` has cleared it. -/
theorem beforeBinding_isPoweredOn {s : State} (h : isInitialized s = false → isPoweredOn s = false) :
    isPoweredOn (beforeBinding s) = false := by
  cases hI : isInitialized s
  · rw [beforeBinding_of_unbound hI, h hI]
  · rw [isPoweredOn_eq, beforeBinding_ctx_of_initialized hI]
    rfl

theorem State.Inv.unbound_off {s : State} (h : s.Inv) (hI : isInitialized s = false) : isPoweredOn s = false := by
  rw [isPoweredOn_eq, h.unbound_zero hI]
  rfl

theorem linesAtRest_opUninit {s s' : State} {r : Result} (hrest : s.LinesAtRest) (h : opUninit s = .next (r, s')) :
    s'.LinesAtRest := by
  rcases opUninit_eq_next h with ⟨_, _, rfl⟩ | ⟨_, _, rfl⟩
  · exact hrest
  · exact linesAtRest_of_unbound rfl

theorem linesAtRest_opPowerOff {s s' : State} {r : Result} (hrest : s.LinesAtRest)
    (h : opPowerOff s = .next (r, s')) : s'.LinesAtRest := by
  rcases opPowerOff_eq_next h with ⟨_, rfl⟩ | ⟨_, _, _, rfl⟩
  · exact hrest
  · exact linesAtRest_powerSwitched false hrest

theorem linesAtRest_opUpdate {s s' : State} {ucb : CbArg} {r : Result} (hrest : s.LinesAtRest)
    (h : opUpdate ucb s = .next (r, s')) : s'.LinesAtRest := by
  rcases opUpdate_eq_next h with ⟨_, rfl⟩ | ⟨_, _, ⟨_, _, m, _, _, rfl⟩ | ⟨_, _, rfl⟩ | ⟨_, _, _, _, rfl⟩⟩
  · exact hrest
  · exact (linesAtRest_walked _ _ _).mpr hrest
  · exact hrest
  · exact (linesAtRest_counted _).mpr (linesAtRest_transmitted ((linesAtRest_walked _ _ _).mpr hrest))

theorem linesAtRest_opPowerOn {s s' : State} {ucb : CbArg} {r : Result} (hrest : s.LinesAtRest)
    (h : opPowerOn ucb s = .next (r, s')) : s'.LinesAtRest := by
  rcases opPowerOn_eq_next h with ⟨_, rfl⟩ | ⟨_, _, h⟩
  · exact hrest
  · exact linesAtRest_opUpdate (linesAtRest_powerSwitched true hrest) h

/-- `INIT` binds over an unpowered context, so its lines are at rest from there on, however it ends (R134, R136). -/
theorem linesAtRest_opInit {s s' : State} {b : Binding} {n : LedCount} {icb ucb : CbArg} {pwr : Bool} {r : Result}
    (hinv : s.Inv) (hrest : s.LinesAtRest) (h : opInit b n icb pwr ucb s = .next (r, s')) : s'.LinesAtRest := by
  have hbound : (bound b n (beforeBinding s)).LinesAtRest :=
    linesAtRest_bound b n (beforeBinding_isPoweredOn hinv.unbound_off)
  have hwalked (m : Nat) : (walked .init m (bound b n (beforeBinding s))).LinesAtRest :=
    (linesAtRest_walked _ _ _).mpr hbound
  rcases opInit_eq_next h with
    ⟨_, _, rfl⟩ | ⟨_, ⟨_, _, m, _, rfl⟩ | ⟨_, _, rfl⟩ | ⟨_, _, hon⟩ | ⟨_, _, s₁, r₂, hon, hun⟩⟩
  · exact hrest
  · exact hwalked _
  · exact hwalked _
  · exact linesAtRest_opPowerOn (hwalked _) hon
  · exact linesAtRest_opUninit (linesAtRest_opPowerOn (hwalked _) hon) hun

theorem linesAtRest_exec {i : Instr} {s s' : State} (hinv : s.Inv) (hrest : s.LinesAtRest)
    (h : exec i s = .next s') : s'.LinesAtRest := by
  cases i <;> obtain ⟨r, s₁, ho, rfl⟩ := respond_eq_next h <;> rw [linesAtRest_responded]
  case init => exact linesAtRest_opInit hinv hrest ho
  case powerOn => exact linesAtRest_opPowerOn hrest ho
  case powerOff => exact linesAtRest_opPowerOff hrest ho
  case update => exact linesAtRest_opUpdate hrest ho
  case uninit => exact linesAtRest_opUninit hrest ho

theorem linesAtRest_performWord {w : CmdWord} {s s' : State} (hinv : s.Inv) (hrest : s.LinesAtRest)
    (h : performWord w s = .next s') : s'.LinesAtRest := by
  unfold performWord at h
  split at h
  · exact linesAtRest_exec hinv hrest h
  · cases h
    exact hrest

/-- Settles O44: the lines of an idle block move only in a command, and each command's pieces leave them at rest. -/
theorem stepKeepsLinesAtRest : Obligations.StepKeepsLinesAtRest := by
  intro s s' hinv hrest h
  rcases step_idle_eq_next hinv.idle h with rfl | ⟨v, rest, rfl⟩ | ⟨w, rest, hw⟩
  · exact hrest
  · exact hrest
  · have hinv₁ : { s with inputs := rest }.Inv := hinv.of_ctx_eq rfl hinv.idle
    exact linesAtRest_performWord hinv₁ hrest hw

/-- Settles O45: both registers of the bank hold 0, so no pin is an output. -/
theorem uninitLeavesTheBankUndriven : Obligations.UninitLeavesTheBankUndriven := by
  intro s hI
  obtain ⟨s', huninit, _, hread⟩ := exec_uninit_initialized hI
  refine ⟨s', huninit, fun p => levelOf_eq_z.mpr ?_⟩
  rw [hread, if_pos (.inl rfl)]
  exact pinBit_zero p

end Sys2Proof.Machine

/-! ## What each command does and answers (40_device_ops R131 to R149) -/

namespace Sys2Proof.Machine

/-! Refusals: a failing check is the answer, and changes nothing. -/

theorem opPowerOff_refused {s : State} {r : Result} (h : poweredCheck s = some r) : opPowerOff s = ret r s := by
  rw [opPowerOff, h]

theorem opUpdate_refused {s : State} {r : Result} (ucb : CbArg) (h : poweredCheck s = some r) :
    opUpdate ucb s = ret r s := by
  rw [opUpdate, h]

theorem opPowerOn_refused {s : State} {r : Result} (ucb : CbArg) (h : unpoweredCheck s = some r) :
    opPowerOn ucb s = ret r s := by
  rw [opPowerOn, h]

theorem poweredCheck_unbound {s : State} (hI : isInitialized s = false) :
    poweredCheck s = some .invalidArgument := by
  simp [poweredCheck, hI]

theorem poweredCheck_off {s : State} (hI : isInitialized s = true) (hP : isPoweredOn s = false) :
    poweredCheck s = some .invalidState := by
  simp [poweredCheck, hI, hP]

theorem unpoweredCheck_unbound {s : State} (hI : isInitialized s = false) :
    unpoweredCheck s = some .invalidArgument := by
  simp [unpoweredCheck, hI]

theorem unpoweredCheck_on {s : State} (hI : isInitialized s = true) (hP : isPoweredOn s = true) :
    unpoweredCheck s = some .invalidState := by
  simp [unpoweredCheck, hI, hP]

theorem opUninit_unbound {s : State} (hI : isInitialized s = false) : opUninit s = ret .invalidArgument s := by
  rw [opUninit, if_pos hI]

theorem opInit_badCount {n : LedCount} (h : ¬CountOk n) (s : State) (b : Binding) (icb : CbArg) (pwr : Bool)
    (ucb : CbArg) : opInit b n icb pwr ucb s = ret .invalidArgument s := by
  rw [opInit, if_pos ((initCheck_iff_not_countOk n).mpr h)]

/-- Settles O13: the two checks in order, and the closed form of the power switch. -/
theorem powerOffDefinition : Obligations.PowerOffDefinition := fun _ =>
  ⟨fun hI => congrArg respond (opPowerOff_refused (poweredCheck_unbound hI)),
    fun hI hP => congrArg respond (opPowerOff_refused (poweredCheck_off hI hP)),
    fun hI hP => congrArg respond (opPowerOff_on hI hP)⟩

/-- Settles O14: the two checks in order, and then the `UPDATE` on the switched state. -/
theorem powerOnDefinition : Obligations.PowerOnDefinition := fun _ ucb =>
  ⟨fun hI => congrArg respond (opPowerOn_refused ucb (unpoweredCheck_unbound hI)),
    fun hI hP => congrArg respond (opPowerOn_refused ucb (unpoweredCheck_on hI hP)),
    fun hI hP => congrArg respond (opPowerOn_off ucb hI hP)⟩

/-- Settles O15: the two checks come before the walk and the count. -/
theorem updateRefusals : Obligations.UpdateRefusals := fun _ ucb =>
  ⟨fun hI => congrArg respond (opUpdate_refused ucb (poweredCheck_unbound hI)),
    fun hI hP => congrArg respond (opUpdate_refused ucb (poweredCheck_off hI hP))⟩

/-- Settles O16: the check, and the clearing of the context, powered off first if it was on. -/
theorem uninitDefinition : Obligations.UninitDefinition := by
  refine fun s => ⟨fun hI => congrArg respond (opUninit_unbound hI), fun hI hP => ?_, fun hI hP => ?_⟩
  all_goals
    have h := congrArg respond (opUninit_initialized hI)
    rw [hP] at h
    exact h

/-! `UPDATE` and `POWER_ON` to their end. -/

/-- Settles O23: below the maximum the count after the frame is made. -/
theorem updateResult : Obligations.UpdateResult := fun _ _ hI hP hcount hit hcb =>
  congrArg respond ((opUpdate_callbackSucceeds hI hP hcount.1 hcount.2 hcb).trans (countUpdate_below hit))

/-- Settles O24: the failing walk is the end of the command, before the frame and the count. -/
theorem updateCallbackFailure : Obligations.UpdateCallbackFailure := fun _ _ hI hP _ hm hfail =>
  congrArg respond (opUpdate_callbackFails hI hP hm hfail)

/-- `POWER_ON` of an initialized context that is off is the power switch and a full `UPDATE` (R137). -/
theorem exec_powerOn_off {s : State} (ucb : CbArg) (hI : isInitialized s = true) (hP : isPoweredOn s = false) :
    exec (.powerOn ucb) s = exec (.update ucb) (powerSwitched true s) :=
  congrArg respond (opPowerOn_off ucb hI hP)

/-- Settles O25: the `UPDATE` on the switched state fails, and nothing undoes the switch. -/
theorem powerOnCallbackFailure : Obligations.PowerOnCallbackFailure := fun s m hI hP hcount hm hfail =>
  (exec_powerOn_off .supplied hI hP).trans (updateCallbackFailure (powerSwitched true s) m hI rfl hcount hm hfail)

/-- Settles O26: the `UPDATE` on the switched state succeeds. -/
theorem powerOnResult : Obligations.PowerOnResult := fun s ucb hI hP hcount hit hcb =>
  (exec_powerOn_off ucb hI hP).trans (updateResult (powerSwitched true s) ucb hI rfl hcount hit hcb)

/-- An `UPDATE` that reaches its count at the largest iteration value is refused (R146, D12). -/
theorem exec_update_maximum {s : State} {ucb : CbArg} (hI : isInitialized s = true) (hP : isPoweredOn s = true)
    (hcount : CountOk s.ctx.count) (hit : s.ctx.iteration = iterationMax)
    (hcb : CallbackSucceeds .update ucb s s.ctx.count) : exec (.update ucb) s = .refused .iterationAtMaximum :=
  congrArg respond ((opUpdate_callbackSucceeds hI hP hcount.1 hcount.2 hcb).trans (countUpdate_max hit))

/-- Settles O27: the count is refused, in an `UPDATE` and in the one a `POWER_ON` starts. -/
theorem updateAtTheMaximumIsRefused : Obligations.UpdateAtTheMaximumIsRefused := fun s ucb hI hcount hit =>
  ⟨fun hP hcb => exec_update_maximum hI hP hcount hit hcb,
    fun hP hcb => (exec_powerOn_off ucb hI hP).trans
      (exec_update_maximum (s := powerSwitched true s) hI rfl hcount hit hcb)⟩

/-! `INIT` to its end. -/

/-- `INIT` whose init callback, if any, succeeds goes on from the filled buffer (R135, R136). -/
theorem opInit_filled {s : State} {b : Binding} {n : LedCount} {icb : CbArg} (pwr : Bool) (ucb : CbArg)
    (hn : CountOk n) (hicb : CallbackSucceeds .init icb (bound b n (beforeBinding s)) n) :
    opInit b n icb pwr ucb s =
      if pwr then powerOnOrRollBack ucb (filled b n icb s) else ret .success (filled b n icb s) := by
  rw [opInit_countOk s b n icb pwr ucb hn, optionalWalk_success _ _ _ _ hn.2 hicb, onSuccess_ret_success]

/-- Settles O18: without power-on the filled buffer is the end. -/
theorem initResult : Obligations.InitResult := fun _ _ _ _ ucb hn hicb =>
  congrArg respond (opInit_filled false ucb hn hicb)

/-- Settles O17: the count is checked first; and `INIT` without callback and power-on is the case of O18 in which
nothing can fail. -/
theorem initRefusesABadCount : Obligations.InitRefusesABadCount := by
  refine fun s b n ucb => ⟨fun hbad icb pwr => ?_, fun hpos hle => ?_⟩
  · have hn : ¬CountOk n := fun hok => by
      obtain ⟨hpos, hle⟩ := hok
      have hmax : Config.maxLeds = 64 := rfl
      omega
    exact congrArg respond (opInit_badCount hn s b icb pwr ucb)
  · exact ⟨_, initResult s b n .absent ucb ⟨hpos, hle⟩ nofun, rfl, rfl⟩

/-- Settles O19: the walk that fails at LED `m` is the end of `INIT`. -/
theorem initCallbackFailure : Obligations.InitCallbackFailure := by
  intro s b n pwr ucb m hn hm hfail
  have hinit : opInit b n .supplied pwr ucb s =
      ret .invalidArgument (walked .init (m + 1) (bound b n (beforeBinding s))) := by
    rw [opInit_countOk s b n .supplied pwr ucb hn, optionalWalk, callbackWalk_failure _ _ _ _ hm hfail,
      onSuccess_ret _ _ _ (by decide)]
  exact congrArg respond hinit

/-- The power-on of `INIT` finds the filled context off, so it is the power switch and a full `UPDATE` (R136, R137). -/
theorem opPowerOn_filled {s : State} (b : Binding) (n : LedCount) (icb ucb : CbArg)
    (hoff : isInitialized s = false → isPoweredOn s = false) :
    opPowerOn ucb (filled b n icb s) = opUpdate ucb (powerSwitched true (filled b n icb s)) :=
  opPowerOn_off ucb rfl (beforeBinding_isPoweredOn hoff)

/-- A power-on that succeeds is kept (R136). -/
theorem powerOnOrRollBack_success {s s' : State} {ucb : CbArg} (h : opPowerOn ucb s = ret .success s') :
    powerOnOrRollBack ucb s = ret .success s' := by
  rw [powerOnOrRollBack, h]
  rfl

/-- A power-on that fails with the power on is undone by the full `UNINIT`, and its error is the answer (R136, R217). -/
theorem powerOnOrRollBack_failure {s s' : State} {ucb : CbArg} {r : Result} (h : opPowerOn ucb s = ret r s')
    (hr : r ≠ .success) (hI : isInitialized s' = true) (hP : isPoweredOn s' = true) :
    powerOnOrRollBack ucb s = ret r (cleared (powerSwitched false s')) := by
  have hun : opUninit s' = ret .success (cleared (powerSwitched false s')) := by
    rw [opUninit_initialized hI, hP]
    rfl
  rw [powerOnOrRollBack, h]
  simp only [ret, andThen_next, if_neg hr]
  rw [hun]
  rfl

/-- Settles O20: the power-on of the filled context succeeds. -/
theorem initWithPowerOnResult : Obligations.InitWithPowerOnResult := by
  intro s b n icb ucb s₁ s₂ hn hoff hit hicb hucb
  have hon : opPowerOn ucb s₁ = ret .success (counted (transmitted (walked .update (requests ucb n) s₂))) :=
    calc opPowerOn ucb s₁
        = opUpdate ucb s₂ := opPowerOn_filled b n icb ucb hoff
      _ = countUpdate (transmitted (walked .update (requests ucb n) s₂)) :=
        opUpdate_callbackSucceeds rfl rfl hn.1 hn.2 hucb
      _ = _ := countUpdate_below hit
  exact congrArg respond ((opInit_filled true ucb hn hicb).trans (powerOnOrRollBack_success hon))

/-- Settles O21: the power-on of the filled context fails in its walk, and is rolled back. -/
theorem initRollsBackAFailedPowerOn : Obligations.InitRollsBackAFailedPowerOn := by
  intro s b n icb m s₁ s₂ hn hoff hm hicb hfail
  have hon : opPowerOn .supplied s₁ = ret .invalidArgument (walked .update (m + 1) s₂) :=
    (opPowerOn_filled b n icb .supplied hoff).trans (opUpdate_callbackFails rfl rfl hm hfail)
  exact congrArg respond
    ((opInit_filled true .supplied hn hicb).trans (powerOnOrRollBack_failure hon (by decide) rfl rfl))

/-- Settles O22: past the count check `INIT` reads its state through the implicit `UNINIT` only, and a second one finds
nothing to do. -/
theorem reinitIsUninitThenInit : Obligations.ReinitIsUninitThenInit := by
  intro s b n icb pwr ucb hI hn
  have hzero := beforeBinding_ctx_of_initialized hI
  have hunbound : isInitialized (beforeBinding s) = false := by
    rw [isInitialized_eq, hzero]
    rfl
  have hagain : beforeBinding (beforeBinding s) = beforeBinding s := beforeBinding_of_unbound hunbound
  refine ⟨beforeBinding s, opUninit_eq_beforeBinding hI, hzero, congrArg respond ?_⟩
  rw [opInit_countOk _ _ _ _ _ _ hn, opInit_countOk _ _ _ _ _ _ hn, hagain]

/-- Setting a pin that was cleared just before is setting it (R13). -/
@[simp] theorem withPin_withoutPin (v : PortWord) (p : Pin) : withPin (withoutPin v p) p = withPin v p := by
  ext i
  cases hv : v[i] <;> simp [withPin, withoutPin, hv]

/-- The events of a power switch: the value written is what the bound output register then holds (R137, R140). -/
theorem powerSwitched_trace (on : Bool) (s : State) :
    (powerSwitched on s).trace =
      s.trace ++ [.wrPort s.ctx.binding.port (boundPort (powerSwitched on s)), .delay .settle] := by
  rw [boundPort_powerSwitched]
  rfl

/-- Off and on again is on: what a power cycle leaves in the bound output register (R137, R140). -/
theorem boundPort_powerCycled (s : State) :
    boundPort (powerSwitched true (powerSwitched false s)) = withPin (boundPort s) s.ctx.binding.pwr := by
  simp [boundPort_powerSwitched]

/-- Without a callback `POWER_ON` asks nothing: the power switch, one frame, one count (R137, R143). -/
theorem exec_powerOn_absent {s : State} (hI : isInitialized s = true) (hP : isPoweredOn s = false)
    (hcount : CountOk s.ctx.count) (hit : s.ctx.iteration ≠ iterationMax) :
    exec (.powerOn .absent) s = .next (responded .success (counted (transmitted (powerSwitched true s)))) := by
  have h := powerOnResult s .absent hI hP hcount hit nofun
  rwa [requests, walked_zero] at h

/-- Settles O51: the two results; the cleared and set power-enable pin is a set one, and `STATUS.P` is as it was. -/
theorem powerCycleResendsTheColours : Obligations.PowerCycleResendsTheColours := by
  intro s hinv hP hit b v
  have hI := hinv.powered_init hP
  let s₁ := responded .success (powerSwitched false s)
  have hport : boundPort (powerSwitched true s₁) = v := boundPort_powerCycled s
  have hstatus : (⟨s.ctx.status.initialized, true⟩ : Status) = s.ctx.status := congrArg (Status.mk _) hP.symm
  refine ⟨s₁, _, congrArg respond (opPowerOff_on hI hP), exec_powerOn_absent hI rfl (hinv.countOk hI) hit, ?_, ?_⟩
  · exact congrArg (fun st => { s.ctx with status := st, iteration := s.ctx.iteration + 1 }) hstatus
  · show (powerSwitched true s₁).trace
        ++ txEvents b.port (withPin (boundPort (powerSwitched true s₁)) b.data)
          (withoutPin (boundPort (powerSwitched true s₁)) b.data) (activeBytes s.ctx) s.ie ++ [.resp .success] = _
    rw [powerSwitched_trace, hport]
    rfl

end Sys2Proof.Machine

/-! ## The lifecycle as a transition table (10_state R27, 40_device_ops R150) -/

namespace Sys2Proof.Machine

@[simp] theorem lifecycle_responded (r : Result) (s : State) : lifecycle (responded r s) = lifecycle s := rfl
@[simp] theorem lifecycle_walked (port : CbPort) (m : Nat) (s : State) :
    lifecycle (walked port m s) = lifecycle s := rfl
@[simp] theorem lifecycle_transmitted (s : State) : lifecycle (transmitted s) = lifecycle s := rfl
@[simp] theorem lifecycle_counted (s : State) : lifecycle (counted s) = lifecycle s := rfl
@[simp] theorem lifecycle_cleared (s : State) : lifecycle (cleared s) = .unbound := rfl

theorem lifecycle_unbound {s : State} (hI : isInitialized s = false) : lifecycle s = .unbound := by
  simp [lifecycle, hI]

theorem lifecycle_off {s : State} (hI : isInitialized s = true) (hP : isPoweredOn s = false) :
    lifecycle s = .initializedOff := by
  simp [lifecycle, hI, hP]

theorem lifecycle_on {s : State} (hI : isInitialized s = true) (hP : isPoweredOn s = true) :
    lifecycle s = .initializedOn := by
  simp [lifecycle, hI, hP]

theorem lifecycle_powerSwitched (on : Bool) {s : State} (hI : isInitialized s = true) :
    lifecycle (powerSwitched on s) = if on then .initializedOn else .initializedOff := by
  have hI' : isInitialized (powerSwitched on s) = true := hI
  cases on
  · exact lifecycle_off hI' rfl
  · exact lifecycle_on hI' rfl

@[simp] theorem lifecycle_filled_powered (b : Binding) (n : LedCount) (icb : CbArg) (s : State) :
    lifecycle (powerSwitched true (filled b n icb s)) = .initializedOn := lifecycle_powerSwitched true rfl

/-- A binding over an unpowered context leaves it off (R134). -/
theorem lifecycle_bound {s : State} (b : Binding) (n : LedCount) (hinv : s.Inv) :
    lifecycle (bound b n (beforeBinding s)) = .initializedOff :=
  lifecycle_off rfl (beforeBinding_isPoweredOn hinv.unbound_off)

theorem opPowerOff_transition {s s' : State} {r : Result} (h : opPowerOff s = .next (r, s')) :
    (r, lifecycle s') ∈ transitions .powerOff (lifecycle s) := by
  rcases opPowerOff_outcomes h with ⟨hI, rfl, rfl⟩ | ⟨hI, hP, rfl, rfl⟩ | ⟨hI, hP, rfl, rfl⟩
  · simp [transitions, lifecycle_unbound hI]
  · simp [transitions, lifecycle_off hI hP]
  · simp [transitions, lifecycle_on hI hP, lifecycle_powerSwitched false hI]

theorem opUninit_transition {s s' : State} {r : Result} (h : opUninit s = .next (r, s')) :
    (r, lifecycle s') ∈ transitions .uninit (lifecycle s) := by
  rcases opUninit_eq_next h with ⟨hI, rfl, rfl⟩ | ⟨hI, rfl, rfl⟩
  · simp [transitions, lifecycle_unbound hI]
  · cases hP : isPoweredOn s
    · simp [transitions, lifecycle_off hI hP]
    · simp [transitions, lifecycle_on hI hP]

theorem opUpdate_transition {s s' : State} {ucb : CbArg} {r : Result} (hinv : s.Inv)
    (h : opUpdate ucb s = .next (r, s')) : (r, lifecycle s') ∈ transitions (.update ucb) (lifecycle s) := by
  rcases opUpdate_outcomes hinv h with
    ⟨hI, rfl, rfl⟩ | ⟨hI, hP, rfl, rfl⟩ | ⟨hI, hP, ⟨rfl, rfl, m, _, _, rfl⟩ | ⟨rfl, _, rfl⟩⟩
  · simp [transitions, lifecycle_unbound hI]
  · simp [transitions, lifecycle_off hI hP]
  · simp [transitions, lifecycle_on hI hP, ifCallback]
  · simp [transitions, lifecycle_on hI hP]

theorem opPowerOn_transition {s s' : State} {ucb : CbArg} {r : Result} (hinv : s.Inv)
    (h : opPowerOn ucb s = .next (r, s')) : (r, lifecycle s') ∈ transitions (.powerOn ucb) (lifecycle s) := by
  rcases opPowerOn_outcomes hinv h with
    ⟨hI, rfl, rfl⟩ | ⟨hI, hP, rfl, rfl⟩ | ⟨hI, hP, ⟨rfl, rfl, m, _, _, rfl⟩ | ⟨rfl, _, rfl⟩⟩
  · simp [transitions, lifecycle_unbound hI]
  · simp [transitions, lifecycle_on hI hP]
  · simp [transitions, lifecycle_off hI hP, lifecycle_powerSwitched true hI, ifCallback]
  · simp [transitions, lifecycle_off hI hP, lifecycle_powerSwitched true hI]

theorem opInit_transition {s s' : State} {b : Binding} {n : LedCount} {icb ucb : CbArg} {pwr : Bool} {r : Result}
    (hinv : s.Inv) (h : opInit b n icb pwr ucb s = .next (r, s')) :
    (r, lifecycle s') ∈ transitions (.init b n icb pwr ucb) (lifecycle s) := by
  have hbound := lifecycle_bound b n hinv
  rcases opInit_outcomes hinv h with
    ⟨hbad, rfl, rfl⟩ | ⟨hn, ⟨rfl, rfl, m, _, rfl⟩ | ⟨rfl, rfl, rfl⟩ | ⟨rfl, rfl, rfl⟩ | ⟨rfl, rfl, rfl, m, _, rfl⟩⟩
  · simp [transitions, if_neg hbad]
  · simp [transitions, if_pos hn, ifCallback, hbound]
  · simp [transitions, if_pos hn, hbound]
  · simp [transitions, if_pos hn]
  · simp [transitions, if_pos hn, ifCallback]

/-- Settles O47: the result answered is the operation's, and each outcome of each operation is in the table's cell. -/
theorem lifecycleFollowsTheTable : Obligations.LifecycleFollowsTheTable := by
  intro i s s' hinv h
  obtain ⟨es, r, hans⟩ := eachCommandRespondsOnceLast i s s' h
  refine ⟨es, r, hans, ?_⟩
  obtain ⟨_, htrace, _⟩ := hans
  cases i <;> obtain ⟨s₁, ho, rfl⟩ := respond_eq_next_of_trace h htrace <;> rw [lifecycle_responded]
  case init => exact opInit_transition hinv ho
  case powerOn => exact opPowerOn_transition hinv ho
  case powerOff => exact opPowerOff_transition ho
  case update => exact opUpdate_transition hinv ho
  case uninit => exact opUninit_transition ho

end Sys2Proof.Machine

/-! ## TRANSMIT: its checks, its events and their counts (41_protocol_encoder R171 to R174, R194, R196) -/

namespace Sys2Proof.Machine

/-- A failing precondition is the answer, and changes nothing (R172). -/
theorem opTransmit_refused {s : State} {r : Result} (h : transmitCheck s = some r) : opTransmit s = .next (r, s) := by
  simp only [opTransmit, h, ret]

theorem transmitCheck_passed {s : State} (hI : isInitialized s = true) (hP : isPoweredOn s = true)
    (hcount : CountOk s.ctx.count) : transmitCheck s = none :=
  transmitCheck_eq_none.mpr ⟨hI, hP, byteCount_ne_zero hcount.1⟩

/-- With the lifecycle and the count in order the whole frame is sent (R171). -/
theorem opTransmit_success {s : State} (hI : isInitialized s = true) (hP : isPoweredOn s = true)
    (hcount : CountOk s.ctx.count) : opTransmit s = .next (.success, transmitted s) :=
  opTransmit_eq s (transmitCheck_passed hI hP hcount) hcount.2

/-- Settles O29: the two checks in their order, then the closed form of a whole transmission. -/
theorem transmitDefinition : Obligations.TransmitDefinition := by
  refine fun s => ⟨fun hoff => ?_, fun hI hP hzero => ?_, opTransmit_success, fun hinv hP => ?_⟩
  · exact opTransmit_refused (by rw [transmitCheck, if_pos hoff])
  · exact opTransmit_refused (by simp [transmitCheck, hI, hP, byteCount, hzero])
  · have hI := hinv.powered_init hP
    exact ⟨_, opTransmit_success hI hP (hinv.countOk hI)⟩

/-- The events of a frame, bit by bit (R178). -/
theorem txEvents_eq_bits (sel : Sel) (hi lo : PortWord) (bytes : List Chan) (e : Bool) :
    txEvents sel hi lo bytes e =
      [.irqOff e] ++ (bytes.flatMap wireBits).flatMap (pulseEvents sel hi lo)
        ++ [.wrPort sel lo, .delay .reset, .irqRestore e] := by
  rw [List.flatMap_assoc]
  rfl

/-- What a transmission may emit between its entry of the critical section and the latch delay: a write of one of the
two patterns to the bound output register, or a phase delay (R194). -/
def IsPhaseEvent (sel : Sel) (hi lo : PortWord) (e : Event) : Prop :=
  e = .wrPort sel hi ∨ e = .wrPort sel lo ∨ e = .delay .phaseA ∨ e = .delay .phaseB ∨ e = .delay .phaseC

section PhaseEvents
variable {sel : Sel} {hi lo : PortWord}

theorem isPhaseEvent_of_mem_pulseEvents {v : Bool} {e : Event} (h : e ∈ pulseEvents sel hi lo v) :
    IsPhaseEvent sel hi lo e := by
  have hmem : e = .wrPort sel hi ∨ e = .delay .phaseA ∨ (v = false ∧ e = .wrPort sel lo) ∨ e = .delay .phaseB ∨
      e = .wrPort sel lo ∨ e = .delay .phaseC := by
    simpa [pulseEvents] using h
  rcases hmem with hhi | hA | ⟨_, hlo⟩ | hB | hlo | hC
  · exact .inl hhi
  · exact .inr (.inr (.inl hA))
  · exact .inr (.inl hlo)
  · exact .inr (.inr (.inr (.inl hB)))
  · exact .inr (.inl hlo)
  · exact .inr (.inr (.inr (.inr hC)))

/-- A frame in its critical section: entry, phase events only, the latch delay, exit (R175, R184, R185). -/
theorem txEvents_eq_criticalSection (bytes : List Chan) (e : Bool) :
    ∃ mid, txEvents sel hi lo bytes e = [.irqOff e] ++ mid ++ [.delay .reset, .irqRestore e] ∧
      ∀ ev ∈ mid, IsPhaseEvent sel hi lo ev := by
  refine ⟨(bytes.flatMap wireBits).flatMap (pulseEvents sel hi lo) ++ [.wrPort sel lo], ?_, fun ev hev => ?_⟩
  · rw [txEvents_eq_bits]
    simp
  · rcases List.mem_append.mp hev with hbits | hlast
    · obtain ⟨v, _, hv⟩ := List.mem_flatMap.mp hbits
      exact isPhaseEvent_of_mem_pulseEvents hv
    · exact .inr (.inl (List.mem_singleton.mp hlast))

theorem mem_txEvents {bytes : List Chan} {e : Bool} {ev : Event} (h : ev ∈ txEvents sel hi lo bytes e) :
    IsPhaseEvent sel hi lo ev ∨ ev = .irqOff e ∨ ev = .delay .reset ∨ ev = .irqRestore e := by
  obtain ⟨mid, htx, hmid⟩ := txEvents_eq_criticalSection (sel := sel) (hi := hi) (lo := lo) bytes e
  rw [htx] at h
  simp only [List.mem_append, List.mem_cons, List.not_mem_nil, or_false] at h
  rcases h with (hoff | hin) | hend
  · exact .inr (.inl hoff)
  · exact .inl (hmid ev hin)
  · exact .inr (.inr hend)

/-- Every write of a transmission is one of the two patterns, to the bound output register (R174). -/
theorem wrPort_mem_txEvents {bytes : List Chan} {e : Bool} {r : Sel} {v : PortWord}
    (h : .wrPort r v ∈ txEvents sel hi lo bytes e) : r = sel ∧ (v = hi ∨ v = lo) := by
  rcases mem_txEvents h with (hev | hev | hev | hev | hev) | hev | hev | hev <;> cases hev
  · exact ⟨rfl, .inl rfl⟩
  · exact ⟨rfl, .inr rfl⟩

theorem wrDdr_not_mem_txEvents (bytes : List Chan) (e : Bool) (r : Sel) (v : PortWord) :
    .wrDdr r v ∉ txEvents sel hi lo bytes e := fun h => by
  rcases mem_txEvents h with (hev | hev | hev | hev | hev) | hev | hev | hev <;> cases hev

end PhaseEvents

/-- Settles O35: the events of a whole transmission are a frame in its critical section. -/
theorem criticalSectionShape : Obligations.CriticalSectionShape := by
  intro s hI hP hcount
  obtain ⟨mid, htx, hmid⟩ := txEvents_eq_criticalSection (sel := s.ctx.binding.port)
    (hi := (transmitted s).patHi) (lo := (transmitted s).patLo) (activeBytes s.ctx) s.ie
  refine ⟨transmitted s, mid, opTransmit_success hI hP hcount, ?_, hmid⟩
  calc (transmitted s).trace
      = s.trace ++
          txEvents s.ctx.binding.port (transmitted s).patHi (transmitted s).patLo (activeBytes s.ctx) s.ie := rfl
    _ = s.trace ++ [.irqOff s.ie] ++ mid ++ [.delay .reset, .irqRestore s.ie] := by rw [htx]; simp

/-- Settles O36: only the two patterns are written, and each is the snapshot but for the data pin. -/
theorem transmitKeepsOtherPins : Obligations.TransmitKeepsOtherPins := by
  intro s hI hP hcount
  refine ⟨transmitted s, _, opTransmit_success hI hP hcount, rfl, rfl, rfl, ?_, ?_, fun sel v hw => ?_,
    wrDdr_not_mem_txEvents _ _, boundPort_transmitted s⟩
  · simp [transmitted, pinBit_withPin]
  · simp [transmitted, pinBit_withoutPin]
  · obtain ⟨hsel, hv⟩ := wrPort_mem_txEvents hw
    refine ⟨hsel, fun p hp => ?_⟩
    rcases hv with rfl | rfl
    · simp [pinBit_withPin, hp]
    · simp [pinBit_withoutPin, hp]

/-- Settles O37: every piece of a command leaves `IE` as it found it. -/
theorem interruptsEndAsTheyStarted : Obligations.InterruptsEndAsTheyStarted := fun _ _ _ h =>
  (keepsEnvironment_exec h).ie

/-! Counting along a trace. -/

/-- A quantity that adds up over the parts of a trace. -/
structure AddsUp (f : List Event → Nat) : Prop where
  nil : f [] = 0
  append : ∀ es fs, f (es ++ fs) = f es + f fs

theorem addsUp_filter_length (p : Event → Bool) : AddsUp fun es => (es.filter p).length :=
  ⟨rfl, fun es fs => by rw [List.filter_append, List.length_append]⟩

theorem addsUp_length : AddsUp List.length := ⟨rfl, fun _ _ => List.length_append⟩

theorem addsUp_traceNs : AddsUp traceNs where
  nil := rfl
  append es fs := by
    induction es with
    | nil => simp [traceNs]
    | cons e es ih => cases e <;> simp [traceNs, ih, Nat.add_assoc]

section Counting
variable {f : List Event → Nat} (hf : AddsUp f) {sel : Sel} {hi lo : PortWord} {a z : Nat}
  (hpulse : ∀ v, f (pulseEvents sel hi lo v) = a + if v then 0 else z)
include hf hpulse

/-- `a` for each bit-pulse, and `z` more for each that sends a zero. -/
theorem AddsUp.pulses (bits : List Bool) :
    f (bits.flatMap (pulseEvents sel hi lo)) = a * bits.length + z * bits.count false := by
  induction bits with
  | nil => simp [hf.nil]
  | cons v bits ih =>
    rw [List.flatMap_cons, hf.append, hpulse, ih, List.length_cons, Nat.mul_succ]
    cases v with
    | false => rw [List.count_cons_self, Nat.mul_succ, if_neg Bool.false_ne_true]; omega
    | true => rw [List.count_cons_of_ne Bool.noConfusion, if_pos rfl]; omega

/-- The same over a whole transmission: the entry, the bit-pulses, the latch and the exit (R171). -/
theorem AddsUp.txEvents {c : Ctx} (hle : c.count.toNat ≤ Config.maxLeds) (e : Bool) :
    f (txEvents sel hi lo (activeBytes c) e) =
      f [.irqOff e] + (a * (24 * c.count.toNat) + z * zeroBits (activeBytes c))
        + f [.wrPort sel lo, .delay .reset, .irqRestore e] := by
  rw [txEvents_eq_bits, hf.append, hf.append, hf.pulses hpulse, ← frameBits_length c hle]
  rfl

end Counting

/-! Counting along a waveform. -/

theorem highSegments_extendLast (ds : List DelayLabel) (gs : List Segment) :
    highSegments (extendLast ds gs) = highSegments gs := by
  induction gs with
  | nil => rfl
  | cons g gs ih =>
    cases gs with
    | nil => cases hg : g.level <;> simp [extendLast, highSegments, hg]
    | cons g' gs => cases hg : g.level <;> simpa [extendLast, highSegments, hg] using ih

/-- One rising edge for each bit-pulse (R101, R196). -/
theorem highSegments_flatMap_pulse (bits : List Bool) : highSegments (bits.flatMap pulse) = bits.length := by
  induction bits with
  | nil => rfl
  | cons v bits ih =>
    rw [List.flatMap_cons, pulse_eq, List.length_cons, ← ih]
    simp [highSegments]

/-- A transmission that starts with the data line low raises it once for each bit (R196). -/
theorem highSegments_wave_txEvents {sel : Sel} {p : Pin} {hi lo : PortWord} {c : Ctx} (hhi : pinBit hi p = true)
    (hlo : pinBit lo p = false) (hcount : CountOk c.count) (e : Bool) :
    highSegments (wave (txEvents sel hi lo (activeBytes c) e) sel p false) = 24 * c.count.toNat := by
  have hlen := frameBits_length c hcount.2
  have hbits : frameBits c ≠ [] := by
    rw [← List.length_pos_iff, hlen]
    have := hcount.1
    omega
  rw [wave_txEvents hhi hlo e hbits, highSegments_extendLast, highSegments_flatMap_pulse, ← frameBits, hlen]

/-- Settles O33: each count adds up over the bit-pulses; a zero bit costs one write more than a one. -/
theorem transmitEventCounts : Obligations.TransmitEventCounts := by
  intro s hI hP hcount
  have hle := hcount.2
  refine ⟨transmitted s, _, opTransmit_success hI hP hcount, rfl, ?_, ?_, ?_, ?_, ?_, fun _ => ?_, ?_⟩
  · rw [(addsUp_filter_length _).txEvents (a := 2) (z := 1) (fun v => by cases v <;> rfl) hle]
    simp [Event.isPortWrite]
    omega
  · rw [(addsUp_filter_length _).txEvents (a := 3) (z := 0) (fun v => by cases v <;> rfl) hle]
    simp [Event.isDelay]
    omega
  · rw [(addsUp_filter_length _).txEvents (a := 0) (z := 0) (fun v => by cases v <;> rfl) hle]
    simp [Event.isIrqOff]
  · rw [(addsUp_filter_length _).txEvents (a := 0) (z := 0) (fun v => by cases v <;> rfl) hle]
    simp [Event.isIrqRestore]
  · rw [addsUp_length.txEvents (a := 5) (z := 1) (fun v => by cases v <;> rfl) hle]
    simp
    omega
  · exact highSegments_wave_txEvents (by simp [pinBit_withPin]) (by simp [pinBit_withoutPin]) hcount s.ie
  · rw [addsUp_traceNs.txEvents (a := DelayLabel.phaseA.ns + DelayLabel.phaseB.ns + DelayLabel.phaseC.ns) (z := 0)
      (fun v => by cases v <;> simp [pulseEvents, traceNs, Nat.add_assoc]) hle]
    simp [traceNs, Nat.mul_comm]

end Sys2Proof.Machine

/-! ## The bit-timer runs a transmission (41_protocol_encoder R186 to R192) -/

namespace Sys2Proof.Machine

theorem timerRun_succ (n : Nat) (s : State) : timerRun (n + 1) s = andThen (timerRun n s) timerStep := by
  induction n generalizing s with
  | zero => rw [timerRun, timerRun, andThen_next]; cases timerStep s <;> rfl
  | succ n ih =>
    rw [timerRun, timerRun, andThen_assoc]
    exact congrArg _ (funext ih)

/-- However long it runs, the bit-timer neither reads nor changes what is outside the block (R192, R198). -/
theorem timerRun_withOutside (q : List HostInput) (a : List (InitRequest × CbAnswer))
    (u : List (UpdateRequest × CbAnswer)) (n : Nat) {s t : State} (h : timerRun n s = .next t) :
    timerRun n (withOutside q a u s) = .next (withOutside q a u t) := by
  induction n generalizing t with
  | zero => cases h; rfl
  | succ n ih =>
    rw [timerRun_succ] at h ⊢
    obtain ⟨r, hr, hstep⟩ := andThen_eq_next h
    rw [ih hr, andThen_next, timerStep_withOutside, hstep, andThen_next]

/-- `n` transitions lead from `s` to `t`, and after none of them is the timer idle. -/
inductive BusyRun (s : State) : Nat → State → Prop
  | refl : BusyRun s 0 s
  | step {n : Nat} {t u : State} : BusyRun s n t → timerStep t = .next u → u.phase ≠ .idle → BusyRun s (n + 1) u

theorem BusyRun.timerRun_eq {s t : State} {n : Nat} (h : BusyRun s n t) : timerRun n s = .next t := by
  induction h with
  | refl => rfl
  | step _ hstep _ ih => rw [timerRun_succ, ih, andThen_next, hstep]

theorem BusyRun.busy {s t : State} {n : Nat} (h : BusyRun s n t) (hn : 0 < n) : t.phase ≠ .idle := by
  cases h with
  | refl => exact absurd hn (Nat.lt_irrefl 0)
  | step _ _ hbusy => exact hbusy

/-- The first transitions of a busy run are a busy run. -/
theorem BusyRun.upTo {s t : State} {n m : Nat} (h : BusyRun s n t) (hm : m ≤ n) : ∃ u, BusyRun s m u := by
  induction h with
  | refl => exact ⟨s, Nat.le_zero.mp hm ▸ .refl⟩
  | step hrun hstep hbusy ih =>
    rcases Nat.le_succ_iff.mp hm with hle | rfl
    · exact ih hle
    · exact ⟨_, hrun.step hstep hbusy⟩

/-- The walker stands at bit `n` of the frame (R63, R177, R178). -/
def standAt (n : Nat) (s : State) : State := walkTo (n / 8) (7 - n % 8) s

/-- The state after the bit-pulses of the first `n` bits of the frame, the walker still at the last of them. -/
def bitsSent (n : Nat) (s : State) : State :=
  if n = 0 then s
  else
    { standAt (n - 1) s with
      phase := .lowC
      gpio := s.gpio.set s.ctx.binding.port.toNat s.patLo s.ctx.binding.port.isLt
      trace := s.trace ++ ((frameBits s.ctx).take n).flatMap (pulseEvents s.ctx.binding.port s.patHi s.patLo) }

@[simp] theorem bitsSent_ctx (n : Nat) (s : State) : (bitsSent n s).ctx = s.ctx := by
  unfold bitsSent; split <;> rfl

/-- One bit-pulse more (R180 to R182). -/
theorem pulsed_bitsSent {n : Nat} {v : Bool} {s : State} (h : (frameBits s.ctx)[n]? = some v) :
    pulsed (n / 8) (7 - n % 8) v (bitsSent n s) = bitsSent (n + 1) s := by
  have htake : (frameBits s.ctx).take (n + 1) = (frameBits s.ctx).take n ++ [v] := by
    simp [List.take_add_one, h]
  by_cases hn : n = 0
  · subst hn
    rw [List.take_zero, List.nil_append] at htake
    simp [pulsed, bitsSent, standAt, walkTo, htake]
  · simp [pulsed, bitsSent, standAt, walkTo, htake, hn]

/-- The transition out of the window: the line goes low (R189). -/
theorem timerStep_windowPhase (v : Bool) (s : State) :
    timerStep (windowPhase v s) = .next (lowPhase (windowPhase v s)) := rfl

theorem currentBit_standAt {n : Nat} (hn : n < 8 * 2 ^ 10) (s : State) :
    currentBit (highPhase (standAt n s)) = frameBit s.ctx n := by
  have hk : (BitVec.ofNat 10 (n / 8)).toNat = n / 8 := Nat.mod_eq_of_lt (by omega)
  have hj : (BitVec.ofNat 3 (7 - n % 8)).toNat = 7 - n % 8 := Nat.mod_eq_of_lt (by omega)
  simp only [currentBit, highPhase_ctx, highPhase_k, highPhase_j, standAt, walkTo, hk, hj, frameBit]

/-- The transition out of phase A: the window reads the walker's bit (R188). -/
theorem timerStep_highA {n : Nat} {v : Bool} {s : State} (hn : n < 8 * 2 ^ 10) (h : frameBit s.ctx n = some v) :
    timerStep (highPhase (standAt n s)) = .next (windowPhase v (highPhase (standAt n s))) := by
  have hbit := (currentBit_standAt hn s).trans h
  calc timerStep (highPhase (standAt n s))
      = window (highPhase (standAt n s)) := rfl
    _ = _ := by simp only [window, hbit]

/-- Leaving phase C of bit `n`: on to the next bit, or to the reset latch after the last (R190). -/
theorem timerNextBit_standAt {n : Nat} {s : State} (hn : n < 8 * byteCount s.ctx) (hc : byteCount s.ctx < 2 ^ 10)
    (hk : s.k = BitVec.ofNat 10 (n / 8)) (hj : s.j = BitVec.ofNat 3 (7 - n % 8)) :
    timerNextBit s = if n + 1 < 8 * byteCount s.ctx then highPhase (standAt (n + 1) s) else latch s := by
  have hk' : s.k.toNat = n / 8 := by rw [hk]; exact Nat.mod_eq_of_lt (by omega)
  have hj' : s.j.toNat = 7 - n % 8 := by rw [hj]; exact Nat.mod_eq_of_lt (by omega)
  rw [timerNextBit, hk', hj']
  by_cases hbit : n % 8 < 7
  · have hkn : s.k = BitVec.ofNat 10 ((n + 1) / 8) := by rw [hk]; congr 1; omega
    have hjn : s.j - 1 = BitVec.ofNat 3 (7 - (n + 1) % 8) := by
      rw [hj]; apply BitVec.eq_of_toNat_eq; simp; omega
    rw [if_pos (by omega), if_pos (by omega), standAt, walkTo, ← hkn, ← hjn]
  · have hkn : s.k + 1 = BitVec.ofNat 10 ((n + 1) / 8) := by
      rw [hk]; apply BitVec.eq_of_toNat_eq; simp; omega
    have hjn : (7 : BitIndex) = BitVec.ofNat 3 (7 - (n + 1) % 8) := by
      rw [show (n + 1) % 8 = 0 by omega]; rfl
    have hlast : n / 8 + 1 < byteCount s.ctx ↔ n + 1 < 8 * byteCount s.ctx := by omega
    rw [if_neg (by omega), standAt, walkTo, ← hkn, ← hjn]
    simp only [hlast]

/-- Where the timer is once `n` bits of the frame are sent: at the next bit, or after the last in the reset latch. -/
def bitsDone (n : Nat) (s : State) : State :=
  if n < 8 * byteCount s.ctx then highPhase (standAt n (bitsSent n s)) else latch (bitsSent n s)

/-- After the last bit the line is latched (R190). -/
theorem bitsDone_of_le {n : Nat} {s : State} (h : 8 * byteCount s.ctx ≤ n) : bitsDone n s = latch (bitsSent n s) :=
  if_neg (Nat.not_lt.mpr h)

theorem bitsDone_busy (n : Nat) (s : State) : (bitsDone n s).phase ≠ .idle := by
  unfold bitsDone
  split <;> nofun

theorem timerStep_bitsSent {n : Nat} {s : State} (hn : n < 8 * byteCount s.ctx) (hc : byteCount s.ctx < 2 ^ 10) :
    timerStep (bitsSent (n + 1) s) = .next (bitsDone (n + 1) s) := by
  have hctx := bitsSent_ctx (n + 1) s
  have hnext := timerNextBit_standAt (s := bitsSent (n + 1) s) (by rwa [hctx]) (by rwa [hctx]) rfl rfl
  rw [hctx] at hnext
  exact congrArg _ hnext

/-- Three transitions to a bit (R188 to R190). -/
theorem BusyRun.bit {s r : State} {m n : Nat} (h : BusyRun r m (bitsDone n s)) (hn : n < 8 * byteCount s.ctx)
    (hc : byteCount s.ctx ≤ 3 * Config.maxLeds) : BusyRun r (m + 3) (bitsDone (n + 1) s) := by
  have hc' : byteCount s.ctx < 2 ^ 10 := Nat.lt_of_le_of_lt hc (by decide)
  have hframe : n < 24 * s.ctx.count.toNat := by unfold byteCount at hn; omega
  obtain ⟨v, hv⟩ : ∃ v, (frameBits s.ctx)[n]? = some v :=
    ⟨_, List.getElem?_eq_getElem (by rw [frameBits_length _ (by unfold byteCount at hc; omega)]; exact hframe)⟩
  have hbit : frameBit (bitsSent n s).ctx n = some v := by rw [bitsSent_ctx, ← frameBits_getElem? _ hframe, hv]
  have hpulse : lowPhase (windowPhase v (highPhase (standAt n (bitsSent n s)))) = bitsSent (n + 1) s :=
    (lowPhase_windowPhase_highPhase ..).trans (pulsed_bitsSent hv)
  rw [bitsDone, if_pos hn] at h
  have hwin := h.step (timerStep_highA (by omega) hbit) nofun
  have hlow := hwin.step (timerStep_windowPhase ..) nofun
  rw [hpulse] at hlow
  exact hlow.step (timerStep_bitsSent hn hc') (bitsDone_busy _ _)

/-- The transition out of `T_IDLE` (R187). -/
theorem timerStep_idle {s : State} (hidle : s.phase = .idle) (hcheck : transmitCheck s = none) :
    timerStep s = .next (bitsDone 0 (lock (snapshot s))) := by
  obtain ⟨_, _, hbytes⟩ := transmitCheck_eq_none.mp hcheck
  have hstart : bitsDone 0 (lock (snapshot s)) = timerStart s :=
    if_pos (Nat.pos_of_ne_zero (Nat.mul_ne_zero (by decide) hbytes))
  simp only [timerStep, hidle, hcheck, if_true, hstart]

/-- The run up to bit `n`: one transition to start, three to a bit. -/
theorem busyRun_bits {s : State} (hidle : s.phase = .idle) (hcheck : transmitCheck s = none)
    (hle : s.ctx.count.toNat ≤ Config.maxLeds) {n : Nat} (hn : n ≤ 8 * byteCount s.ctx) :
    BusyRun s (1 + 3 * n) (bitsDone n (lock (snapshot s))) := by
  induction n with
  | zero => exact BusyRun.refl.step (timerStep_idle hidle hcheck) (bitsDone_busy _ _)
  | succ n ih => exact (ih (by omega)).bit hn (Nat.mul_le_mul_left 3 hle)

/-- The latch and the exit after the whole frame leave what `TRANSMIT` leaves (R184, R185, R191). -/
theorem unlock_latch_bitsSent {s : State} (hcheck : transmitCheck s = none)
    (hle : s.ctx.count.toNat ≤ Config.maxLeds) :
    unlock (latch (bitsSent (8 * byteCount s.ctx) (lock (snapshot s)))) = transmitted s := by
  obtain ⟨_, _, hbytes⟩ := transmitCheck_eq_none.mp hcheck
  have hbits : (activeBytes s.ctx).flatMap wireBits = frameBits s.ctx := rfl
  have hframe : (frameBits s.ctx).take (8 * byteCount s.ctx) = frameBits s.ctx :=
    List.take_of_length_le (by rw [frameBits_length _ hle, byteCount]; omega)
  have hk : (8 * byteCount s.ctx - 1) / 8 = byteCount s.ctx - 1 := by omega
  have hj : 7 - (8 * byteCount s.ctx - 1) % 8 = 0 := by omega
  rw [bitsSent, if_neg (by omega)]
  simp [standAt, walkTo, hk, hj, hframe, lock, snapshot, unlock, latch, delay, emit, writePort,
    gpioSet, transmitted, txEvents_eq_bits, hbits]

/-- Settles O30: three transitions to each bit of the frame after the one that starts it, and one more out of the latch;
no transition reads what is outside. -/
theorem bitTimerAgreesWithTransmit : Obligations.BitTimerAgreesWithTransmit := by
  intro s hidle hI hP hcount steps
  have hcheck := transmitCheck_passed hI hP hcount
  have hbytes : 3 * 24 * s.ctx.count.toNat = 3 * (8 * byteCount s.ctx) := by unfold byteCount; omega
  have hbusy : BusyRun s (1 + 3 * 24 * s.ctx.count.toNat)
      (latch (bitsSent (8 * byteCount s.ctx) (lock (snapshot s)))) := by
    rw [hbytes, ← bitsDone_of_le (s := lock (snapshot s)) (Nat.le_refl (8 * byteCount s.ctx))]
    exact busyRun_bits hidle hcheck hcount.2 (Nat.le_refl _)
  have hend : timerRun steps s = .next (transmitted s) := by
    rw [timerRun_succ, hbusy.timerRun_eq, andThen_next, ← unlock_latch_bitsSent hcheck hcount.2]
    rfl
  refine ⟨⟨transmitted s, opTransmit_success hI hP hcount, hend, rfl⟩, fun n hn => ?_⟩
  obtain ⟨t, hrun, hmid⟩ : ∃ t, timerRun n s = .next t ∧ (0 < n → n < steps → t.phase ≠ .idle) := by
    rcases Nat.le_succ_iff.mp hn with hlt | rfl
    · obtain ⟨t, ht⟩ := hbusy.upTo hlt
      exact ⟨t, ht.timerRun_eq, fun hpos _ => ht.busy hpos⟩
    · exact ⟨_, hend, fun _ hlt => absurd hlt (Nat.lt_irrefl _)⟩
  exact ⟨t, hrun, hmid, fun q a u => timerRun_withOutside q a u n hrun⟩

end Sys2Proof.Machine

/-! ## Taking an error (60_exceptions R212, R213, R218, R229) -/

namespace Sys2Proof.Machine

@[simp] theorem mem_ifCallback {cb : CbArg} {o p : Result × Lifecycle} :
    o ∈ ifCallback cb p ↔ cb = .supplied ∧ o = p := by
  cases cb <;> simp [ifCallback]

/-- `INIT` runs from every lifecycle state, and starts its power-on when off: no cell lists `InvalidState` (R213). -/
theorem success_or_invalidArgument_of_mem_transitions_init {b : Binding} {n : LedCount} {icb ucb : CbArg} {pwr : Bool}
    {l l' : Lifecycle} {r : Result} (h : (r, l') ∈ transitions (.init b n icb pwr ucb) l) :
    r = .success ∨ r = .invalidArgument := by
  by_cases hn : CountOk n
  · rw [transitions, if_pos hn, List.mem_append, mem_ifCallback] at h
    rcases h with ⟨_, ⟨⟩⟩ | h
    · exact .inr rfl
    · cases pwr
      · exact .inl (congrArg Prod.fst (List.mem_singleton.mp h))
      · rcases List.mem_cons.mp h with hon | hfail
        · exact .inl (congrArg Prod.fst hon)
        · exact .inr (congrArg Prod.fst (mem_ifCallback.mp hfail).2)
  · rw [transitions, if_neg hn] at h
    exact .inr (congrArg Prod.fst (List.mem_singleton.mp h))

/-- `UNINIT` powers off by itself when it has to: no cell lists `InvalidState` (R213). -/
theorem success_or_invalidArgument_of_mem_transitions_uninit {l l' : Lifecycle} {r : Result}
    (h : (r, l') ∈ transitions .uninit l) : r = .success ∨ r = .invalidArgument := by
  cases l
  · exact .inr (congrArg Prod.fst (List.mem_singleton.mp h))
  · exact .inl (congrArg Prod.fst (List.mem_singleton.mp h))
  · exact .inl (congrArg Prod.fst (List.mem_singleton.mp h))

/-- No cell lists `InvalidData`: `TRANSMIT` answers it for an empty frame only, and no bound context has one (R212). -/
theorem ne_invalidData_of_mem_transitions {i : Instr} {l l' : Lifecycle} {r : Result}
    (h : (r, l') ∈ transitions i l) : r ≠ .invalidData := by
  rintro rfl
  cases i with
  | init => exact absurd (success_or_invalidArgument_of_mem_transitions_init h) nofun
  | powerOn ucb => cases l <;> simp [transitions] at h
  | powerOff => cases l <;> simp [transitions] at h
  | update ucb => cases l <;> simp [transitions] at h
  | uninit => exact absurd (success_or_invalidArgument_of_mem_transitions_uninit h) nofun

/-- A completed command has one response, the last event of its trace, so the table's is the one that was answered. -/
theorem Answered.mem_transitions {i : Instr} {s s' : State} {es : List Event} {r : Result} (hinv : s.Inv)
    (h : Answered i s s' es r) : (r, lifecycle s') ∈ transitions i (lifecycle s) := by
  obtain ⟨hexec, htrace, _⟩ := h
  obtain ⟨es', r', ⟨_, htrace', _⟩, hmem⟩ := lifecycleFollowsTheTable i s s' hinv hexec
  have hresp : r' = r := by
    have hlast := congrArg List.getLast? (htrace'.symm.trans htrace)
    simpa using hlast
  exact hresp ▸ hmem

/-- `INIT` and `UNINIT` never answer `InvalidState` (R213). -/
theorem Answered.ne_invalidState {i : Instr} {s s' : State} {es : List Event} {r : Result} (hinv : s.Inv)
    (h : Answered i s s' es r) (hi : i = .uninit ∨ ∃ b n icb pwr ucb, i = .init b n icb pwr ucb) :
    r ≠ .invalidState := by
  have hmem := h.mem_transitions hinv
  rintro rfl
  rcases hi with rfl | ⟨b, n, icb, pwr, ucb, rfl⟩
  · exact absurd (success_or_invalidArgument_of_mem_transitions_uninit hmem) nofun
  · exact absurd (success_or_invalidArgument_of_mem_transitions_init hmem) nofun

/-- Settles O48: what is answered stands in the transition table, and the codes are missing from its cells. -/
theorem unreachableErrorCodes : Obligations.UnreachableErrorCodes := fun _ _ _ _ _ hinv h =>
  ⟨ne_invalidData_of_mem_transitions (h.mem_transitions hinv), h.ne_invalidState hinv⟩

/-! An operation that answers `InvalidState` stopped at its lifecycle check, before it changed anything (R218). -/

theorem opPowerOff_unchanged_of_invalidState {s s' : State} (h : opPowerOff s = .next (.invalidState, s')) : s' = s := by
  rcases opPowerOff_outcomes h with ⟨_, ⟨⟩, _⟩ | ⟨_, _, _, hs⟩ | ⟨_, _, ⟨⟩, _⟩
  exact hs

theorem opUpdate_unchanged_of_invalidState {s s' : State} {ucb : CbArg} (hinv : s.Inv)
    (h : opUpdate ucb s = .next (.invalidState, s')) : s' = s := by
  rcases opUpdate_outcomes hinv h with ⟨_, ⟨⟩, _⟩ | ⟨_, _, _, hs⟩ | ⟨_, _, ⟨⟨⟩, _⟩ | ⟨⟨⟩, _⟩⟩
  exact hs

theorem opPowerOn_unchanged_of_invalidState {s s' : State} {ucb : CbArg} (hinv : s.Inv)
    (h : opPowerOn ucb s = .next (.invalidState, s')) : s' = s := by
  rcases opPowerOn_outcomes hinv h with ⟨_, ⟨⟩, _⟩ | ⟨_, _, _, hs⟩ | ⟨_, _, ⟨⟨⟩, _⟩ | ⟨⟨⟩, _⟩⟩
  exact hs

/-- Settles O42: `INIT` and `UNINIT` never answer the code, and the other three answer it at their check. -/
theorem invalidStateHasNoSideEffect : Obligations.InvalidStateHasNoSideEffect := by
  intro i s s' es hinv h
  have hcode := h.ne_invalidState hinv
  obtain ⟨hexec, htrace, _⟩ := h
  cases i <;> obtain ⟨s₁, ho, rfl⟩ := respond_eq_next_of_trace hexec htrace
  case init => exact absurd rfl (hcode (.inr ⟨_, _, _, _, _, rfl⟩))
  case powerOn => rw [opPowerOn_unchanged_of_invalidState hinv ho]
  case powerOff => rw [opPowerOff_unchanged_of_invalidState ho]
  case update => rw [opUpdate_unchanged_of_invalidState hinv ho]
  case uninit => exact absurd rfl (hcode (.inl rfl))

end Sys2Proof.Machine

/-! ## Reset and the idle block (70_reset_and_hazards R250 to R252) -/

namespace Sys2Proof.Machine

/-- `s` with the transient registers of `u` (R33, R34, R36, R37). -/
def withTransientsOf (u s : State) : State :=
  { s with patHi := u.patHi, patLo := u.patLo, savedIe := u.savedIe, k := u.k, j := u.j, i := u.i }

theorem sameButTransients_iff {s t : State} : SameButTransients s t ↔ t = withTransientsOf t s := by
  constructor
  · rintro ⟨hctx, hgpio, hie, hphase, htrace, hinputs, hicb, hucb⟩
    simp only [withTransientsOf, hctx, hgpio, hie, hphase, htrace, hinputs, hicb, hucb]
  · intro h
    rw [h]
    exact ⟨rfl, rfl, rfl, rfl, rfl, rfl, rfl, rfl⟩

/-- What the transient registers hold when a piece begins shows, when it ends, in the transient registers only. -/
def IgnoresTransients (f : State → State) : Prop :=
  ∀ u s, f (withTransientsOf u s) = withTransientsOf (f (withTransientsOf u s)) (f s)

theorem IgnoresTransients.sameButTransients {f : State → State} (hf : IgnoresTransients f) {s t : State}
    (h : SameButTransients s t) : SameButTransients (f s) (f t) := by
  have hft := hf t s
  rw [← sameButTransients_iff.mp h] at hft
  exact sameButTransients_iff.mpr hft

/-- Of the pieces only the walk and the transmission touch the transient registers: the walk writes `I`, and the
transmission writes the other five before it reads them (R252). -/
theorem fullAgreement_sameButTransients : FullAgreement SameButTransients where
  status h := congrArg Ctx.status h.ctx
  count h := congrArg Ctx.count h.ctx
  iteration h := congrArg Ctx.iteration h.ctx
  succeeds port n h _ hall := by rw [sameButTransients_iff.mp h]; exact hall
  fails port m h _ hfail := by rw [sameButTransients_iff.mp h]; exact hfail
  power on := IgnoresTransients.sameButTransients fun _ _ => rfl
  walk port m h _ := IgnoresTransients.sameButTransients (f := walked port m) (fun _ _ => rfl) h
  transmit h _ := IgnoresTransients.sameButTransients (f := transmitted) (fun _ _ => rfl) h
  counted := IgnoresTransients.sameButTransients fun _ _ => rfl
  respond r := IgnoresTransients.sameButTransients fun _ _ => rfl
  clear := IgnoresTransients.sameButTransients fun _ _ => rfl
  bind b n := IgnoresTransients.sameButTransients fun _ _ => rfl

/-- Settles O54: every command keeps two runs together that differ in the transient registers only. -/
theorem transientsAreReadByNoCommand : Obligations.TransientsAreReadByNoCommand :=
  fun _ _ _ _ hsame h => fullAgreement_sameButTransients.exec hsame h

/-- An idle block that is offered nothing waits (R252). -/
theorem step_of_nothing {s : State} (hidle : s.phase = .idle) (hnone : s.inputs = []) : step s = .next s := by
  simp only [step, takeInput, hidle, hnone]

/-- An idle block takes the host's setting of `IE` (R32). -/
theorem step_of_setIe {s : State} {v : Bool} {rest : List HostInput} (hidle : s.phase = .idle)
    (hnext : s.inputs = .setIe v :: rest) : step s = .next { s with inputs := rest, ie := v } := by
  simp only [step, takeInput, hidle, hnext, hostSetIe]

/-- Settles O9: the two things other than a command word that an idle block finds at its boundary. -/
theorem idleBlockWaitsAndHostSetsIe : Obligations.IdleBlockWaitsAndHostSetsIe :=
  fun _ hidle => ⟨step_of_nothing hidle, fun _ _ => step_of_setIe hidle⟩

/-- Every slot of the zero context is black (R40). -/
theorem slot_zero {i : Nat} (hi : i < Config.maxLeds) : slot Ctx.zero i = some ⟨0, 0, 0⟩ := by
  rw [slot_isSome _ _ hi]
  simp only [Ctx.zero, Vector.getElem_replicate]

/-- Settles O11: reset is the zero context and the parameters, field by field. -/
theorem resetIsTheZeroContext : Obligations.ResetIsTheZeroContext := by
  refine ⟨fun ie0 gpio0 => ?_, ⟨Config.ie0, rfl⟩, lifecycle_unbound rfl⟩
  exact ⟨rfl, rfl, rfl, rfl, fun _ => slot_zero, rfl, rfl, rfl, rfl, rfl⟩

end Sys2Proof.Machine
